-- ==== Sys2Proof/Word.lean ====
section
/-! DEFINITION. The word types of the core (spec/00_scope.md R5, R7, R8): every value is unsigned. -/

namespace Sys2Proof

/-- A memory byte, a general register or a timer (8 bits). -/
abbrev Byte := BitVec 8

/-- The index register, the program counter, a stack entry or an instruction word (16 bits). -/
abbrev Word := BitVec 16

/-- A 4-bit field of an instruction word: the family, a register number X or Y, or N (R7, R71). -/
abbrev Nibble := BitVec 4

/-- The 12-bit address immediate NNN (R71). -/
abbrev Addr12 := BitVec 12

end Sys2Proof
end

