-- ==== Sys2Proof/Syntax.lean ====
section
/-! DEFINITION. The instruction type: one constructor per row of spec/opcode_table.json, in the table's order
(spec/30_encoding.md R72).  The operands have the widths of R71, so no operand can be out of range (R74).
The bits an instruction ignores (R82) are kept as fields, so that a constructor holds every bit of its word
(log entry 21). -/

namespace Sys2Proof

/-- The 34 instructions of R72. -/
inductive Instr where
  /-- 00E0 CLS; `x` is ignored. -/
  | cls (x : Nibble)
  /-- 00EE RET; `x` is ignored. -/
  | ret (x : Nibble)
  /-- 1NNN JP. -/
  | jp (nnn : Addr12)
  /-- 2NNN CALL. -/
  | call (nnn : Addr12)
  /-- 3XNN SE Vx, nn. -/
  | seImm (x : Nibble) (nn : Byte)
  /-- 4XNN SNE Vx, nn. -/
  | sneImm (x : Nibble) (nn : Byte)
  /-- 5XY0 SE Vx, Vy; `n` is ignored. -/
  | seReg (x y n : Nibble)
  /-- 6XNN LD Vx, nn. -/
  | ldImm (x : Nibble) (nn : Byte)
  /-- 7XNN ADD Vx, nn. -/
  | addImm (x : Nibble) (nn : Byte)
  /-- 8XY0 LD Vx, Vy. -/
  | ldReg (x y : Nibble)
  /-- 8XY1 OR Vx, Vy. -/
  | or (x y : Nibble)
  /-- 8XY2 AND Vx, Vy. -/
  | and (x y : Nibble)
  /-- 8XY3 XOR Vx, Vy. -/
  | xor (x y : Nibble)
  /-- 8XY4 ADD Vx, Vy. -/
  | addReg (x y : Nibble)
  /-- 8XY5 SUB Vx, Vy. -/
  | sub (x y : Nibble)
  /-- 8XY6 SHR Vx; `y` is ignored. -/
  | shr (x y : Nibble)
  /-- 8XY7 SUBN Vx, Vy. -/
  | subn (x y : Nibble)
  /-- 8XYE SHL Vx; `y` is ignored. -/
  | shl (x y : Nibble)
  /-- 9XY0 SNE Vx, Vy; `n` is ignored. -/
  | sneReg (x y n : Nibble)
  /-- ANNN LD I, nnn. -/
  | ldI (nnn : Addr12)
  /-- BNNN JP V0, nnn. -/
  | jpV0 (nnn : Addr12)
  /-- CXNN RND Vx, nn. -/
  | rnd (x : Nibble) (nn : Byte)
  /-- DXYN DRW Vx, Vy, n. -/
  | drw (x y n : Nibble)
  /-- EX9E SKP Vx. -/
  | skp (x : Nibble)
  /-- EXA1 SKNP Vx. -/
  | sknp (x : Nibble)
  /-- FX07 LD Vx, DT. -/
  | ldVxDt (x : Nibble)
  /-- FX0A LD Vx, K. -/
  | ldVxK (x : Nibble)
  /-- FX15 LD DT, Vx. -/
  | ldDtVx (x : Nibble)
  /-- FX18 LD ST, Vx. -/
  | ldStVx (x : Nibble)
  /-- FX1E ADD I, Vx. -/
  | addIVx (x : Nibble)
  /-- FX29 LD F, Vx. -/
  | ldFVx (x : Nibble)
  /-- FX33 LD B, Vx. -/
  | ldBVx (x : Nibble)
  /-- FX55 LD [I], Vx. -/
  | ldMemVx (x : Nibble)
  /-- FX65 LD Vx, [I]. -/
  | ldVxMem (x : Nibble)
  deriving DecidableEq, Repr

end Sys2Proof
end

