-- ==== Sys2Proof/WellFormed.lean ====
section
/-! DEFINITION. Assembler lines and when one is well formed (spec/30_encoding.md R83, R84).
An `Instr` needs no check: its operands are typed by their widths and every value of every field is legal
(R74, R81).  What can be ill formed is a line of the spec's assembler notation, whose operands are plain numbers:
"`nnn` must fit in 12 bits, `nn` in 8 bits and `n` in 4 bits, or the assembler refuses the line" (R84). -/

namespace Sys2Proof

/-- The table mnemonics of R72 and R83. -/
inductive Mnemonic where
  | cls | ret | jp | call | seImm | sneImm | seReg | ldImm
  | addImm | ldReg | or | and | xor | addReg | sub | shr
  | subn | shl | sneReg | ldI | jpV0 | rnd | drw | skp
  | sknp | ldVxDt | ldVxK | ldDtVx | ldStVx | addIVx | ldFVx | ldBVx
  | ldMemVx | ldVxMem
  deriving DecidableEq, Repr

/-- The mnemonic of an instruction (R72). -/
def Instr.mnemonic : Instr → Mnemonic
  | .cls _ => .cls
  | .ret _ => .ret
  | .jp _ => .jp
  | .call _ => .call
  | .seImm _ _ => .seImm
  | .sneImm _ _ => .sneImm
  | .seReg _ _ _ => .seReg
  | .ldImm _ _ => .ldImm
  | .addImm _ _ => .addImm
  | .ldReg _ _ => .ldReg
  | .or _ _ => .or
  | .and _ _ => .and
  | .xor _ _ => .xor
  | .addReg _ _ => .addReg
  | .sub _ _ => .sub
  | .shr _ _ => .shr
  | .subn _ _ => .subn
  | .shl _ _ => .shl
  | .sneReg _ _ _ => .sneReg
  | .ldI _ => .ldI
  | .jpV0 _ => .jpV0
  | .rnd _ _ => .rnd
  | .drw _ _ _ => .drw
  | .skp _ => .skp
  | .sknp _ => .sknp
  | .ldVxDt _ => .ldVxDt
  | .ldVxK _ => .ldVxK
  | .ldDtVx _ => .ldDtVx
  | .ldStVx _ => .ldStVx
  | .addIVx _ => .addIVx
  | .ldFVx _ => .ldFVx
  | .ldBVx _ => .ldBVx
  | .ldMemVx _ => .ldMemVx
  | .ldVxMem _ => .ldVxMem

/-- The operands of an assembler line as numbers; one that is not written is 0.  So `CLS` and `RET` have X = 0 (R84),
and `SHR` and `SHL` without `Vy` have Y = 0 (DESIGN CHOICE, log entry 25). -/
structure Operands where
  x : Nat := 0
  y : Nat := 0
  n : Nat := 0
  nn : Nat := 0
  nnn : Nat := 0
  deriving DecidableEq, Repr

/-- A line of a test program: one instruction, or a raw data word `DW 0xhhhh` (R84). -/
inductive SourceLine where
  | op (m : Mnemonic) (o : Operands)
  | dw (w : Nat)
  deriving DecidableEq, Repr

/-- The operand checks of R84: registers V0..VF, `n` in 4 bits, `nn` in 8, `nnn` in 12. -/
def Operands.wellFormed (o : Operands) : Bool :=
  decide (o.x < 16) && decide (o.y < 16) && decide (o.n < 16) && decide (o.nn < 256) && decide (o.nnn < 4096)

/-- A line the assembler accepts (R84); a `DW` word is 16 bits. -/
def SourceLine.wellFormed : SourceLine → Bool
  | .op _ o => o.wellFormed
  | .dw w => decide (w < 65536)

end Sys2Proof
end

