-- ==== Sys2Proof/Decode.lean ====
section
/-! DEFINITION. Decoding and encoding of instruction words (spec/30_encoding.md R70 to R85). -/

namespace Sys2Proof

/-! ## Fields (R71) -/

/-- `F` = op[15:12], the family. -/
def fieldF (w : Word) : Nibble := w.extractLsb' 12 4
/-- `X` = op[11:8]. -/
def fieldX (w : Word) : Nibble := w.extractLsb' 8 4
/-- `Y` = op[7:4]. -/
def fieldY (w : Word) : Nibble := w.extractLsb' 4 4
/-- `N` = op[3:0]. -/
def fieldN (w : Word) : Nibble := w.extractLsb' 0 4
/-- `NN` = op[7:0]. -/
def fieldNN (w : Word) : Byte := w.extractLsb' 0 8
/-- `NNN` = op[11:0]. -/
def fieldNNN (w : Word) : Addr12 := w.extractLsb' 0 12

/-! ## The decoder -/

/-- Why bytes give no instruction. -/
inductive Reject where
  /-- The word matches no row of R72.  It is not an error: the step runs it as the no-op of R80. -/
  | unrecognized
  /-- Fewer than the two bytes of an instruction word (R70); the fetch never gives the decoder so few. -/
  | truncated
  deriving DecidableEq, Repr

/-- Family 0 dispatches on NN alone (R77). -/
def decodeFamily0 (w : Word) : Except Reject Instr :=
  match fieldNN w with
  | 0xE0#8 => .ok (.cls (fieldX w))
  | 0xEE#8 => .ok (.ret (fieldX w))
  | _ => .error .unrecognized

/-- Family 8 dispatches on N (R78). -/
def decodeFamily8 (w : Word) : Except Reject Instr :=
  match fieldN w with
  | 0x0#4 => .ok (.ldReg (fieldX w) (fieldY w))
  | 0x1#4 => .ok (.or (fieldX w) (fieldY w))
  | 0x2#4 => .ok (.and (fieldX w) (fieldY w))
  | 0x3#4 => .ok (.xor (fieldX w) (fieldY w))
  | 0x4#4 => .ok (.addReg (fieldX w) (fieldY w))
  | 0x5#4 => .ok (.sub (fieldX w) (fieldY w))
  | 0x6#4 => .ok (.shr (fieldX w) (fieldY w))
  | 0x7#4 => .ok (.subn (fieldX w) (fieldY w))
  | 0xE#4 => .ok (.shl (fieldX w) (fieldY w))
  | _ => .error .unrecognized

/-- Family E dispatches on NN (R79). -/
def decodeFamilyE (w : Word) : Except Reject Instr :=
  match fieldNN w with
  | 0x9E#8 => .ok (.skp (fieldX w))
  | 0xA1#8 => .ok (.sknp (fieldX w))
  | _ => .error .unrecognized

/-- Family F dispatches on NN (R79). -/
def decodeFamilyF (w : Word) : Except Reject Instr :=
  match fieldNN w with
  | 0x07#8 => .ok (.ldVxDt (fieldX w))
  | 0x0A#8 => .ok (.ldVxK (fieldX w))
  | 0x15#8 => .ok (.ldDtVx (fieldX w))
  | 0x18#8 => .ok (.ldStVx (fieldX w))
  | 0x1E#8 => .ok (.addIVx (fieldX w))
  | 0x29#8 => .ok (.ldFVx (fieldX w))
  | 0x33#8 => .ok (.ldBVx (fieldX w))
  | 0x55#8 => .ok (.ldMemVx (fieldX w))
  | 0x65#8 => .ok (.ldVxMem (fieldX w))
  | _ => .error .unrecognized

/-- The dispatch of R75 to R79 on the family; families 1 to 7 and 9 to D hold one instruction each (R76). -/
def decodeWord (w : Word) : Except Reject Instr :=
  match fieldF w with
  | 0x0#4 => decodeFamily0 w
  | 0x1#4 => .ok (.jp (fieldNNN w))
  | 0x2#4 => .ok (.call (fieldNNN w))
  | 0x3#4 => .ok (.seImm (fieldX w) (fieldNN w))
  | 0x4#4 => .ok (.sneImm (fieldX w) (fieldNN w))
  | 0x5#4 => .ok (.seReg (fieldX w) (fieldY w) (fieldN w))
  | 0x6#4 => .ok (.ldImm (fieldX w) (fieldNN w))
  | 0x7#4 => .ok (.addImm (fieldX w) (fieldNN w))
  | 0x8#4 => decodeFamily8 w
  | 0x9#4 => .ok (.sneReg (fieldX w) (fieldY w) (fieldN w))
  | 0xA#4 => .ok (.ldI (fieldNNN w))
  | 0xB#4 => .ok (.jpV0 (fieldNNN w))
  | 0xC#4 => .ok (.rnd (fieldX w) (fieldNN w))
  | 0xD#4 => .ok (.drw (fieldX w) (fieldY w) (fieldN w))
  | 0xE#4 => decodeFamilyE w
  | _ => decodeFamilyF w

/-- The two bytes of a big-endian word (R53): the first is the high byte. -/
def wordOfBytes (hi lo : Byte) : Word := hi ++ lo

/-- The decoder over bytes: the instruction the first two give, and the bytes left. -/
def decode : List Byte → Except Reject (Instr × List Byte)
  | hi :: lo :: rest =>
    match decodeWord (wordOfBytes hi lo) with
    | .ok i => .ok (i, rest)
    | .error e => .error e
  | _ => .error .truncated

/-! ## The encoder -/

/-- A word of fields F, X, Y, N (R71, the first format). -/
def packXYN (f x y n : Nibble) : Word := f ++ x ++ y ++ n
/-- A word of fields F, X, NN (R71, the second format). -/
def packXNN (f x : Nibble) (nn : Byte) : Word := f ++ x ++ nn
/-- A word of fields F, NNN (R71, the third format). -/
def packNNN (f : Nibble) (nnn : Addr12) : Word := f ++ nnn

/-- The word of an instruction, from the match column of R72. -/
def encode : Instr → Word
  | .cls x => packXNN 0x0#4 x 0xE0#8
  | .ret x => packXNN 0x0#4 x 0xEE#8
  | .jp nnn => packNNN 0x1#4 nnn
  | .call nnn => packNNN 0x2#4 nnn
  | .seImm x nn => packXNN 0x3#4 x nn
  | .sneImm x nn => packXNN 0x4#4 x nn
  | .seReg x y n => packXYN 0x5#4 x y n
  | .ldImm x nn => packXNN 0x6#4 x nn
  | .addImm x nn => packXNN 0x7#4 x nn
  | .ldReg x y => packXYN 0x8#4 x y 0x0#4
  | .or x y => packXYN 0x8#4 x y 0x1#4
  | .and x y => packXYN 0x8#4 x y 0x2#4
  | .xor x y => packXYN 0x8#4 x y 0x3#4
  | .addReg x y => packXYN 0x8#4 x y 0x4#4
  | .sub x y => packXYN 0x8#4 x y 0x5#4
  | .shr x y => packXYN 0x8#4 x y 0x6#4
  | .subn x y => packXYN 0x8#4 x y 0x7#4
  | .shl x y => packXYN 0x8#4 x y 0xE#4
  | .sneReg x y n => packXYN 0x9#4 x y n
  | .ldI nnn => packNNN 0xA#4 nnn
  | .jpV0 nnn => packNNN 0xB#4 nnn
  | .rnd x nn => packXNN 0xC#4 x nn
  | .drw x y n => packXYN 0xD#4 x y n
  | .skp x => packXNN 0xE#4 x 0x9E#8
  | .sknp x => packXNN 0xE#4 x 0xA1#8
  | .ldVxDt x => packXNN 0xF#4 x 0x07#8
  | .ldVxK x => packXNN 0xF#4 x 0x0A#8
  | .ldDtVx x => packXNN 0xF#4 x 0x15#8
  | .ldStVx x => packXNN 0xF#4 x 0x18#8
  | .addIVx x => packXNN 0xF#4 x 0x1E#8
  | .ldFVx x => packXNN 0xF#4 x 0x29#8
  | .ldBVx x => packXNN 0xF#4 x 0x33#8
  | .ldMemVx x => packXNN 0xF#4 x 0x55#8
  | .ldVxMem x => packXNN 0xF#4 x 0x65#8

/-- The bytes of a word as memory holds them, the high byte first (R53, R54). -/
def bytesOfWord (w : Word) : List Byte := [w.extractLsb' 8 8, w.extractLsb' 0 8]

/-- The bytes of an instruction in memory. -/
def encodeBytes (i : Instr) : List Byte := bytesOfWord (encode i)

/-! ## The opcode table (R72) and the assembler (R83, R84) -/

/-- A row of R72: `op` is the row's instruction when `op & mask == match`. -/
structure OpRow where
  name : String
  mask : Word
  value : Word
  deriving DecidableEq, Repr

/-- The row of a mnemonic, with the table's name of it. -/
def Mnemonic.row : Mnemonic → OpRow
  | .cls => ⟨"CLS", 0xF0FF#16, 0x00E0#16⟩
  | .ret => ⟨"RET", 0xF0FF#16, 0x00EE#16⟩
  | .jp => ⟨"JP", 0xF000#16, 0x1000#16⟩
  | .call => ⟨"CALL", 0xF000#16, 0x2000#16⟩
  | .seImm => ⟨"SE_IMM", 0xF000#16, 0x3000#16⟩
  | .sneImm => ⟨"SNE_IMM", 0xF000#16, 0x4000#16⟩
  | .seReg => ⟨"SE_REG", 0xF000#16, 0x5000#16⟩
  | .ldImm => ⟨"LD_IMM", 0xF000#16, 0x6000#16⟩
  | .addImm => ⟨"ADD_IMM", 0xF000#16, 0x7000#16⟩
  | .ldReg => ⟨"LD_REG", 0xF00F#16, 0x8000#16⟩
  | .or => ⟨"OR", 0xF00F#16, 0x8001#16⟩
  | .and => ⟨"AND", 0xF00F#16, 0x8002#16⟩
  | .xor => ⟨"XOR", 0xF00F#16, 0x8003#16⟩
  | .addReg => ⟨"ADD_REG", 0xF00F#16, 0x8004#16⟩
  | .sub => ⟨"SUB", 0xF00F#16, 0x8005#16⟩
  | .shr => ⟨"SHR", 0xF00F#16, 0x8006#16⟩
  | .subn => ⟨"SUBN", 0xF00F#16, 0x8007#16⟩
  | .shl => ⟨"SHL", 0xF00F#16, 0x800E#16⟩
  | .sneReg => ⟨"SNE_REG", 0xF000#16, 0x9000#16⟩
  | .ldI => ⟨"LD_I", 0xF000#16, 0xA000#16⟩
  | .jpV0 => ⟨"JP_V0", 0xF000#16, 0xB000#16⟩
  | .rnd => ⟨"RND", 0xF000#16, 0xC000#16⟩
  | .drw => ⟨"DRW", 0xF000#16, 0xD000#16⟩
  | .skp => ⟨"SKP", 0xF0FF#16, 0xE09E#16⟩
  | .sknp => ⟨"SKNP", 0xF0FF#16, 0xE0A1#16⟩
  | .ldVxDt => ⟨"LD_VX_DT", 0xF0FF#16, 0xF007#16⟩
  | .ldVxK => ⟨"LD_VX_K", 0xF0FF#16, 0xF00A#16⟩
  | .ldDtVx => ⟨"LD_DT_VX", 0xF0FF#16, 0xF015#16⟩
  | .ldStVx => ⟨"LD_ST_VX", 0xF0FF#16, 0xF018#16⟩
  | .addIVx => ⟨"ADD_I_VX", 0xF0FF#16, 0xF01E#16⟩
  | .ldFVx => ⟨"LD_F_VX", 0xF0FF#16, 0xF029#16⟩
  | .ldBVx => ⟨"LD_B_VX", 0xF0FF#16, 0xF033#16⟩
  | .ldMemVx => ⟨"LD_MEM_VX", 0xF0FF#16, 0xF055#16⟩
  | .ldVxMem => ⟨"LD_VX_MEM", 0xF0FF#16, 0xF065#16⟩

/-- Whether a word matches a row of R72. -/
def OpRow.matchesWord (r : OpRow) (w : Word) : Bool := w &&& r.mask == r.value

/-- The instruction of an accepted line. -/
def Operands.instr (o : Operands) : Mnemonic → Instr
  | .cls => .cls (.ofNat 4 o.x)
  | .ret => .ret (.ofNat 4 o.x)
  | .jp => .jp (.ofNat 12 o.nnn)
  | .call => .call (.ofNat 12 o.nnn)
  | .seImm => .seImm (.ofNat 4 o.x) (.ofNat 8 o.nn)
  | .sneImm => .sneImm (.ofNat 4 o.x) (.ofNat 8 o.nn)
  | .seReg => .seReg (.ofNat 4 o.x) (.ofNat 4 o.y) (.ofNat 4 o.n)
  | .ldImm => .ldImm (.ofNat 4 o.x) (.ofNat 8 o.nn)
  | .addImm => .addImm (.ofNat 4 o.x) (.ofNat 8 o.nn)
  | .ldReg => .ldReg (.ofNat 4 o.x) (.ofNat 4 o.y)
  | .or => .or (.ofNat 4 o.x) (.ofNat 4 o.y)
  | .and => .and (.ofNat 4 o.x) (.ofNat 4 o.y)
  | .xor => .xor (.ofNat 4 o.x) (.ofNat 4 o.y)
  | .addReg => .addReg (.ofNat 4 o.x) (.ofNat 4 o.y)
  | .sub => .sub (.ofNat 4 o.x) (.ofNat 4 o.y)
  | .shr => .shr (.ofNat 4 o.x) (.ofNat 4 o.y)
  | .subn => .subn (.ofNat 4 o.x) (.ofNat 4 o.y)
  | .shl => .shl (.ofNat 4 o.x) (.ofNat 4 o.y)
  | .sneReg => .sneReg (.ofNat 4 o.x) (.ofNat 4 o.y) (.ofNat 4 o.n)
  | .ldI => .ldI (.ofNat 12 o.nnn)
  | .jpV0 => .jpV0 (.ofNat 12 o.nnn)
  | .rnd => .rnd (.ofNat 4 o.x) (.ofNat 8 o.nn)
  | .drw => .drw (.ofNat 4 o.x) (.ofNat 4 o.y) (.ofNat 4 o.n)
  | .skp => .skp (.ofNat 4 o.x)
  | .sknp => .sknp (.ofNat 4 o.x)
  | .ldVxDt => .ldVxDt (.ofNat 4 o.x)
  | .ldVxK => .ldVxK (.ofNat 4 o.x)
  | .ldDtVx => .ldDtVx (.ofNat 4 o.x)
  | .ldStVx => .ldStVx (.ofNat 4 o.x)
  | .addIVx => .addIVx (.ofNat 4 o.x)
  | .ldFVx => .ldFVx (.ofNat 4 o.x)
  | .ldBVx => .ldBVx (.ofNat 4 o.x)
  | .ldMemVx => .ldMemVx (.ofNat 4 o.x)
  | .ldVxMem => .ldVxMem (.ofNat 4 o.x)

/-- The word the assembler gives a line, or none where it refuses the line (R84). -/
def SourceLine.assemble (l : SourceLine) : Option Word :=
  if l.wellFormed then
    match l with
    | .op m o => some (encode (o.instr m))
    | .dw w => some (.ofNat 16 w)
  else none

/-! ## The host's view of the decoder -/

/-- The instruction the decoder reads from the bits `w` of a table row of `nbits` bits: one word, laid out
big-endian; the bits above `nbits` are 0. -/
def decodeTableWord (nbits w : Nat) : Option Instr :=
  match decode (bytesOfWord (.ofNat 16 (w % 2 ^ nbits))) with
  | .ok (i, _) => some i
  | .error _ => none

end Sys2Proof
end

