-- ==== Sys2Proof/Config.lean ====
section
/-! DEFINITION. What is fixed when a machine is made, and the values the spec leaves free
(spec/00_scope.md R5, R6; spec/60_exceptions.md R236, R239).  The parameters R5 calls fixed are the types of the state
(16 registers of 8 bits, 12 stack entries, 64 x 32 pixels, 16 keys) and numerals where an operation uses them: ADDR_MAX is
0x0FFF, ROM_BASE 0x200, ROM_MAX 3584. -/

namespace Sys2Proof

/-- The configuration record the host supplies once, at initialisation (R236 `config`, R5). -/
structure Config where
  /-- `IPS`, instructions per second. -/
  ips : Nat
  /-- `QUIRK_DRAW_CLIP`: clip sprites at the edges (true) or wrap them (false, R176). -/
  drawClip : Bool
  /-- `QUIRK_VF_RESET`: clear VF before each draw (true) or leave it (false, R176). -/
  vfReset : Bool
  deriving DecidableEq, Repr

/-- The document's settings (R5 defaults, R6). -/
def Config.standard : Config := { ips := 500, drawClip := true, vfReset := true }

/-- FREE VALUE (spec/60_exceptions.md R239, U4; log entry 4): the byte the random source gives on the
n-th draw of a run when no injected byte is left.  Any value in 0..255, under no law. -/
opaque Config.freeRandom : Nat → Byte

/-- FREE VALUE (spec/60_exceptions.md R233; log entry 3): the key state the host presents at its n-th
turn when no turn is listed.  Any 16 booleans, under no law. -/
opaque Config.freeKeys : Nat → Vector Bool 16

end Sys2Proof
end

