-- ==== Sys2Proof/Machine/State.lean ====
section
/-! DEFINITION. The state of the machine (spec/10_state.md R20 to R40) and the types it is made of. -/

namespace Sys2Proof.Machine

/-- The six faults of spec/60_exceptions.md R211.  A raised fault is a NEXT state of the model: `State.raise` writes it
into the `FAULT` record and the run state becomes Faulted (R220, log entry 1).  No step and no meaning answers
`Outcome.fault`, so as an outcome each of them is raised by nobody. -/
inductive Fault where
  /-- FETCH_BOUNDS (1): the fetch of every step, when `PC > 0x0FFE` (R91).  Safe: the machine stops where the original
  would read out of bounds (D1). -/
  | fetchBounds
  /-- READ_BOUNDS (2): DXYN and FX65, on a byte address above 0x0FFF (R57, R212).  Safe (D1). -/
  | readBounds
  /-- WRITE_BOUNDS (3): FX33 and FX55, on a byte address above 0x0FFF (R57, R212).  Safe (D1). -/
  | writeBounds
  /-- STACK_OVERFLOW (4): 2NNN with a full stack (R213).  Safe (D2). -/
  | stackOverflow
  /-- STACK_UNDERFLOW (5): 00EE with an empty stack (R214).  Safe (D2). -/
  | stackUnderflow
  /-- KEY_RANGE (6): EX9E and EXA1 with `V[X] > 0x0F` (R192, R215).  Safe (D3). -/
  | keyRange
  deriving DecidableEq, Repr

/-- Why a step is refused. -/
inductive Refusal where
  /-- The instruction has no meaning yet.  Raised by no arm of `exec`: every instruction has its meaning.  Safe. -/
  | notModelled (mnemonic : String)
  deriving DecidableEq, Repr

/-- `RUN_STATE` (R35). -/
inductive RunState where
  | running
  | paused
  | quit
  | faulted
  deriving DecidableEq, Repr

/-- The `FAULT` record (R36).  `code` none is the code NONE. -/
structure FaultRecord where
  code : Option Fault
  /-- The address the faulting instruction was fetched from. -/
  pc : Word
  /-- The instruction word, or 0x0000 for FETCH_BOUNDS. -/
  op : Word
  /-- For a bounds fault the lowest out-of-range byte address, for KEY_RANGE `zext_16(VX)`, else 0. -/
  addr : Word
  deriving DecidableEq, Repr

/-- `FAULT` before any fault (R40). -/
def FaultRecord.blank : FaultRecord := { code := none, pc := 0#16, op := 0#16, addr := 0#16 }

/-- The host's run-state commands (spec/60_exceptions.md R234, R236 `cmd`). -/
inductive HostCommand where
  | none
  | pause
  | resume
  | quit
  deriving DecidableEq, Repr

/-- What the host does at one turn between frames: a command, then one invocation of `Frame` with its key state
(R232 to R234, R236; log entries 3 and 26). -/
structure HostTurn where
  cmd : HostCommand
  keys : Vector Bool 16
  deriving DecidableEq, Repr

/-- The framebuffer: 64 columns of 32 rows, `FB[x][y]` (R34). -/
abbrev Framebuffer := Vector (Vector Bool 32) 64

/-- Memory in canonical form: addresses strictly rising, no entry equal to what an unlisted address reads as
(Machine/Ops.lean). -/
abbrev Memory := List Host.Cell

/-- The state record of R20, the controller's count of R37, the configuration, and the host's coming inputs. -/
structure State where
  /-- `MEM` (R50). -/
  mem : Memory
  /-- `V[0..15]`; `V[15]` is VF (R21, R22). -/
  v : Vector Byte 16
  /-- `I` (R24). -/
  i : Word
  /-- `PC` (R26). -/
  pc : Word
  /-- `STACK[0..11]` (R30). -/
  stack : Vector Word 12
  /-- `SP`, the number of valid entries, 0..12 (R30). -/
  sp : Fin 13
  /-- `DT` (R31). -/
  dt : Byte
  /-- `ST` (R31). -/
  st : Byte
  /-- `KEYS[0..15]`, latched (R33). -/
  keys : Vector Bool 16
  /-- `FB` (R34). -/
  fb : Framebuffer
  /-- `RUN_STATE` (R35). -/
  runState : RunState
  /-- `FAULT` (R36). -/
  fault : FaultRecord
  /-- The configuration the machine was made with (R5, R236); no step changes it (log entry 5). -/
  cfg : Config
  /-- The controller's count of the steps still to run in the open frame, 0 between frames (R37, R232). -/
  frameLeft : Nat
  /-- The host's coming turns; the model's own field (log entry 3). -/
  host : List HostTurn
  /-- Host turns taken so far; the model's own field, the index of the free key state (log entry 3). -/
  turns : Nat
  /-- Injected random bytes still to be drawn; the model's own field (log entry 4). -/
  rnd : List Byte
  /-- Random bytes drawn so far; the model's own field, the index of the free byte (log entry 4). -/
  draws : Nat
  deriving DecidableEq, Repr

/-- The machine right after `Reset(config, rom)` with the standard configuration, the standard FONT and an empty ROM
(R40, R250; log entries 8, 9, 10).  Memory lists nothing, so it reads as FONT and zeros. -/
def State.reset : State where
  mem := []
  v := Vector.replicate 16 0#8
  i := 0#16
  pc := 0x200#16
  stack := Vector.replicate 12 0#16
  sp := 0
  dt := 0#8
  st := 0#8
  keys := Vector.replicate 16 false
  fb := Vector.replicate 64 (Vector.replicate 32 false)
  runState := .running
  fault := .blank
  cfg := .standard
  frameLeft := 0
  host := []
  turns := 0
  rnd := []
  draws := 0

end Sys2Proof.Machine
end

