-- ==== Sys2Proof/Machine/Font.lean ====
section
/-! DEFINITION. FONT (spec/20_memory.md R62): the byte values are the spec's decision D22, from general knowledge
(log entry 7). -/

namespace Sys2Proof.Machine

/-- The five rows of each glyph 0 to F, in order (the table of R62). -/
def fontGlyphs : List (List Byte) :=
  [[0xF0#8, 0x90#8, 0x90#8, 0x90#8, 0xF0#8],
    [0x20#8, 0x60#8, 0x20#8, 0x20#8, 0x70#8],
    [0xF0#8, 0x10#8, 0xF0#8, 0x80#8, 0xF0#8],
    [0xF0#8, 0x10#8, 0xF0#8, 0x10#8, 0xF0#8]]
  ++ [[0x90#8, 0x90#8, 0xF0#8, 0x10#8, 0x10#8],
    [0xF0#8, 0x80#8, 0xF0#8, 0x10#8, 0xF0#8],
    [0xF0#8, 0x80#8, 0xF0#8, 0x90#8, 0xF0#8],
    [0xF0#8, 0x10#8, 0x20#8, 0x40#8, 0x40#8]]
  ++ [[0xF0#8, 0x90#8, 0xF0#8, 0x90#8, 0xF0#8],
    [0xF0#8, 0x90#8, 0xF0#8, 0x10#8, 0xF0#8],
    [0xF0#8, 0x90#8, 0xF0#8, 0x90#8, 0x90#8],
    [0xE0#8, 0x90#8, 0xE0#8, 0x90#8, 0xE0#8]]
  ++ [[0xF0#8, 0x80#8, 0x80#8, 0x80#8, 0xF0#8],
    [0xE0#8, 0x90#8, 0x90#8, 0x90#8, 0xE0#8],
    [0xF0#8, 0x80#8, 0xF0#8, 0x80#8, 0xF0#8],
    [0xF0#8, 0x80#8, 0xF0#8, 0x80#8, 0x80#8]]

/-- The 80 bytes of the standard FONT; glyph `k` is at 5k .. 5k+4 (R62). -/
def standardFont : List Byte := fontGlyphs.flatten

end Sys2Proof.Machine
end

