-- ==== Sys2Proof/Machine/Ops.lean ====
section
/-! DEFINITION. The named operations over memory, registers, the call stack, the random source and the framebuffer, and
fault entry. -/

namespace Sys2Proof.Machine

/-! ## Memory (spec/20_memory.md) -/

/-- What an address that memory does not list reads as: the reset contents, FONT at 0x000-0x04F and 0x00 elsewhere
(spec/10_state.md R40, R59; log entry 6). -/
def Memory.initial (a : Nat) : Byte := standardFont.getD a 0#8

/-- The byte listed for an address. -/
def Memory.lookup : Memory → Nat → Option Byte
  | [], _ => none
  | (k, b) :: m, a => if k = a then some b else lookup m a

/-- `MemRead(a, 1)` (R9, R55). -/
def Memory.read (m : Memory) (a : Nat) : Byte := (m.lookup a).getD (Memory.initial a)

/-- Lists `(a, b)` in front of `m`, unless `b` is what an unlisted `a` reads as. -/
def Memory.cons (a : Nat) (b : Byte) (m : Memory) : Memory := if b = Memory.initial a then m else (a, b) :: m

/-- `MemWrite(a, 1, b)` (R9, R55), keeping the canonical form. -/
def Memory.write : Memory → Nat → Byte → Memory
  | [], a, b => Memory.cons a b []
  | (k, c) :: m, a, b =>
    if a < k then Memory.cons a b ((k, c) :: m)
    else if a = k then Memory.cons a b m
    else (k, c) :: write m a b

/-- Single-byte writes at `a`, `a + 1`, ... in increasing address order (R55). -/
def Memory.writeList (m : Memory) (a : Nat) : List Byte → Memory
  | [] => m
  | b :: bs => writeList (m.write a b) (a + 1) bs

/-- Every listed address is above `lo`, rising, at most 0x0FFF, and its byte is not the unlisted one. -/
def Memory.wfFrom : Nat → Memory → Bool
  | _, [] => true
  | lo, (a, b) :: m =>
    decide (lo ≤ a) && decide (a ≤ 0x0FFF) && decide (b ≠ Memory.initial a) && wfFrom (a + 1) m

/-- The canonical form of memory: addresses strictly rising inside 0x000-0xFFF (R50), no entry equal to what an unlisted
address reads as. -/
def Memory.wf (m : Memory) : Bool := Memory.wfFrom 0 m

/-- The byte at an address of the machine's memory. -/
def State.byteAt (s : State) (a : Nat) : Byte := s.mem.read a

/-- Single-byte stores of a list at `a`, `a + 1`, ... (FX33, FX55). -/
def State.storeBytes (s : State) (a : Nat) (bs : List Byte) : State := { s with mem := s.mem.writeList a bs }

/-- The `n` bytes at `a`, `a + 1`, ... (FX65, DXYN). -/
def State.loadBytes (s : State) (a n : Nat) : List Byte := (List.range n).map fun k => s.byteAt (a + k)

/-! ## Registers (spec/10_state.md R21 to R29, R31) -/

/-- `V[x]`. -/
def State.getV (s : State) (x : Nibble) : Byte := s.v[x.toNat]

/-- `V[x] <- b`.  No register is hard-wired (R21). -/
def State.setV (s : State) (x : Nibble) (b : Byte) : State := { s with v := s.v.set x.toNat b }

/-- The number of VF, the flag register (R22). -/
abbrev vf : Nibble := 0xF#4

/-- `V[k] <- bs[k]` for every `k` below the length of `bs`; the other registers keep their values (FX65). -/
def State.setVs (s : State) (bs : List Byte) : State :=
  { s with v := Vector.ofFn fun k => bs.getD k.val s.v[k] }

/-- `I <- w`. -/
def State.setI (s : State) (w : Word) : State := { s with i := w }

/-- `PC <- w`. -/
def State.setPc (s : State) (w : Word) : State := { s with pc := w }

/-- `DT <- b`. -/
def State.setDt (s : State) (b : Byte) : State := { s with dt := b }

/-- `ST <- b`. -/
def State.setSt (s : State) (b : Byte) : State := { s with st := b }

/-- Advance past the fetched word, and `Skip()`: `PC <- (PC + 2) mod 2^16` (R92, R114). -/
def State.advance (s : State) : State := s.setPc (s.pc + 2#16)

/-- `PC <- (PC - 2) mod 2^16`, the rewind of FX0A (R193). -/
def State.rewind (s : State) : State := s.setPc (s.pc - 2#16)

/-- `if c then Skip()` (R114). -/
def State.skipIf (s : State) (c : Bool) : State := if c then s.advance else s

/-! ## The call stack (R30) -/

/-- `Push(w)`, or none when the stack is full. -/
def State.pushReturn (s : State) (w : Word) : Option State :=
  if h : s.sp.val < 12 then
    some { s with stack := s.stack.set s.sp.val w, sp := ⟨s.sp.val + 1, Nat.succ_lt_succ h⟩ }
  else none

/-- `Pop()`: the popped entry and the state after it, or none when the stack is empty.  The entry is not cleared
(R100). -/
def State.popReturn (s : State) : Option (Word × State) :=
  if h : s.sp.val = 0 then none
  else some (s.stack[s.sp.val - 1]'(by omega), { s with sp := ⟨s.sp.val - 1, by omega⟩ })

/-! ## The random source (spec/60_exceptions.md R239) -/

/-- The byte the next `Rand8()` draws: the next injected byte, or a free value (log entry 4). -/
def State.randomByte (s : State) : Byte := s.rnd.headD (Config.freeRandom s.draws)

/-- The state after one draw. -/
def State.drawn (s : State) : State := { s with rnd := s.rnd.tail, draws := s.draws + 1 }

/-! ## The framebuffer (spec/45_display.md R171) -/

/-- `FB[x][y]`. -/
def Framebuffer.pixel (fb : Framebuffer) (x : Fin 64) (y : Fin 32) : Bool := fb[x][y]

/-- `FB[x][y] <- not FB[x][y]`. -/
def Framebuffer.toggle (fb : Framebuffer) (x : Fin 64) (y : Fin 32) : Framebuffer :=
  fb.set x (fb[x].set y (!fb[x][y]))

/-- Every pixel off. -/
def Framebuffer.clear : Framebuffer := Vector.replicate 64 (Vector.replicate 32 false)

/-! ## Fault entry (spec/60_exceptions.md R220) -/

/-- `raise Fault(code, ...)` with every field of the `FAULT` record given: FAULT is written, the run state becomes Faulted,
nothing else changes.  There is no return from a fault (R221): Faulted is terminal. -/
def State.enterFault (s : State) (code : Fault) (pc op addr : Word) : State :=
  { s with fault := ⟨some code, pc, op, addr⟩, runState := .faulted }

/-- A fault raised in the execute phase of `ins`: PC is already `A + 2`, so the fetch address `A` is `PC - 2`, and the
instruction word is the encoding of `ins` (R211; log entry 21). -/
def State.raise (s : State) (code : Fault) (ins : Instr) (addr : Word) : State :=
  s.enterFault code (s.pc - 2#16) (encode ins) addr

/-- The numeric value of `FAULT.code` (R211). -/
def faultCodeValue : Option Fault → Nat
  | none => 0
  | some .fetchBounds => 1
  | some .readBounds => 2
  | some .writeBounds => 3
  | some .stackOverflow => 4
  | some .stackUnderflow => 5
  | some .keyRange => 6

end Sys2Proof.Machine
end

