-- ==== Sys2Proof/Machine/Boot.lean ====
section
/-! DEFINITION. Reset and ROM load (spec/70_reset_and_hazards.md R250 to R253). -/

namespace Sys2Proof.Machine

/-- The load error of spec/60_exceptions.md R216: the ROM does not fit and no machine is made. -/
inductive LoadError where
  | romTooLarge
  deriving DecidableEq, Repr

/-- Memory after the FONT install and the ROM load, in that order, over 0x00 (R250, R251, R252).  The reset contents of an
unlisted font byte are written over with `font`. -/
def bootMemory (font : Vector Byte 80) (rom : List Byte) : Memory :=
  (Memory.writeList [] 0 font.toList).writeList 0x200 rom

/-- `Reset(config, rom)` with FONT as a parameter (R5, R250): a ROM longer than 3584 bytes is the load error. -/
def boot (cfg : Config) (font : Vector Byte 80) (rom : List Byte) : Except LoadError State :=
  if 3584 < rom.length then .error .romTooLarge
  else .ok { State.reset with cfg := cfg, mem := bootMemory font rom }

/-- The standard FONT as the parameter `boot` takes. -/
def standardFontVector : Vector Byte 80 := ⟨standardFont.toArray, by decide⟩

end Sys2Proof.Machine
end

