-- ==== Sys2Proof/Machine/Flags.lean ====
section
/-! DEFINITION. The flags routed into VF (spec/43_alu.md R122, R127; spec/45_display.md R175) and the write order of flag and
result (spec/40_cycle.md R96). -/

namespace Sys2Proof.Machine

/-- `bool(b)`: a flag as the byte VF receives (R9, R127). -/
def flagByte (b : Bool) : Byte := if b then 1#8 else 0#8

/-- The carry out of bit 7 of `a + b` (R128). -/
def carryOut (a b : Byte) : Bool := decide (a.toNat + b.toNat > 255)

/-- NOT borrow of `a - b` (R129, R131). -/
def notBorrow (a b : Byte) : Bool := decide (b.toNat ≤ a.toNat)

/-- The bit a right shift moves out (R130). -/
def shiftedOutRight (a : Byte) : Bool := a.getLsbD 0

/-- The bit a left shift moves out (R132). -/
def shiftedOutLeft (a : Byte) : Bool := a.getLsbD 7

/-- `V[0xF] <- flag`, then `V[X] <- result`: with X = 0xF the result is what stays (R96, D9; log entry 17). -/
def State.setFlagThenV (s : State) (flag : Bool) (x : Nibble) (result : Byte) : State :=
  (s.setV vf (flagByte flag)).setV x result

end Sys2Proof.Machine
end

