-- ==== Sys2Proof/Machine/Operands.lean ====
section
/-! DEFINITION. The operand forms of the instructions: immediates (spec/30_encoding.md R73), addresses through `I`
(spec/20_memory.md R57, R58; spec/44_index_memory.md R154), register ranges, decimal digits and key indexes. -/

namespace Sys2Proof.Machine

/-- `zext_16` (R8). -/
def zext16 {n : Nat} (a : BitVec n) : Word := a.setWidth 16

/-- The effective address `I + k`, over the naturals (R58, D5). -/
def State.ea (s : State) (k : Nat) : Nat := s.i.toNat + k

/-- The check of R154 and R173: whether an access to the bytes `I .. I + last` stays at or below 0x0FFF. -/
def State.inRange (s : State) (last : Nat) : Bool := decide (s.ea last ≤ 0x0FFF)

/-- The lowest out-of-range address of such an access, `max(I, 0x1000)` (R154). -/
def State.lowestOutOfRange (s : State) : Word := if s.i.toNat < 0x1000 then 0x1000#16 else s.i

/-- The values of V0..VX, in order (R156). -/
def State.regsUpTo (s : State) (x : Nibble) : List Byte := s.v.toList.take (x.toNat + 1)

/-- The hundreds, tens and ones of a byte (R155). -/
def decimalDigits (b : Byte) : List Byte :=
  [.ofNat 8 (b.toNat / 100), .ofNat 8 (b.toNat / 10 % 10), .ofNat 8 (b.toNat % 10)]

/-- `CheckKey()`: a byte as a key index, or none above 0x0F (R192). -/
def keyIndex (b : Byte) : Option (Fin 16) := if h : b.toNat < 16 then some ⟨b.toNat, h⟩ else none

/-- The lowest-indexed pressed key, or none (R193). -/
def lowestKey (keys : Vector Bool 16) : Option (Fin 16) := (List.finRange 16).find? fun k => keys[k]

/-- The glyph address `V * 5` of FX29 (R152). -/
def glyphAddress (b : Byte) : Word := zext16 b * 5#16

end Sys2Proof.Machine
end

