-- ==== Sys2Proof/Machine/Alu.lean ====
section
/-! DEFINITION. Register and ALU operations: 6XNN, 7XNN, 8XY0 to 8XYE, CXNN (spec/43_alu.md).  Every operand is read from
the state at the start of the execute phase (spec/40_cycle.md R95). -/

namespace Sys2Proof.Machine

open Host (Outcome)

/-- R120. -/
def execLdImm (x : Nibble) (nn : Byte) (s : State) : Outcome State Fault Refusal :=
  .next (s.setV x nn)

/-- R121. -/
def execAddImm (x : Nibble) (nn : Byte) (s : State) : Outcome State Fault Refusal :=
  .next (s.setV x (s.getV x + nn))

/-- R123. -/
def execLdReg (x y : Nibble) (s : State) : Outcome State Fault Refusal :=
  .next (s.setV x (s.getV y))

/-- R124. -/
def execOr (x y : Nibble) (s : State) : Outcome State Fault Refusal :=
  .next (s.setV x (s.getV x ||| s.getV y))

/-- R125. -/
def execAnd (x y : Nibble) (s : State) : Outcome State Fault Refusal :=
  .next (s.setV x (s.getV x &&& s.getV y))

/-- R126. -/
def execXor (x y : Nibble) (s : State) : Outcome State Fault Refusal :=
  .next (s.setV x (s.getV x ^^^ s.getV y))

/-- R128. -/
def execAddReg (x y : Nibble) (s : State) : Outcome State Fault Refusal :=
  .next (s.setFlagThenV (carryOut (s.getV x) (s.getV y)) x (s.getV x + s.getV y))

/-- R129. -/
def execSub (x y : Nibble) (s : State) : Outcome State Fault Refusal :=
  .next (s.setFlagThenV (notBorrow (s.getV x) (s.getV y)) x (s.getV x - s.getV y))

/-- R130; `Y` is not read. -/
def execShr (x : Nibble) (s : State) : Outcome State Fault Refusal :=
  .next (s.setFlagThenV (shiftedOutRight (s.getV x)) x (s.getV x >>> 1))

/-- R131. -/
def execSubn (x y : Nibble) (s : State) : Outcome State Fault Refusal :=
  .next (s.setFlagThenV (notBorrow (s.getV y) (s.getV x)) x (s.getV y - s.getV x))

/-- R132; `Y` is not read. -/
def execShl (x : Nibble) (s : State) : Outcome State Fault Refusal :=
  .next (s.setFlagThenV (shiftedOutLeft (s.getV x)) x (s.getV x <<< 1))

/-- R134: one draw per execution, whatever NN is (R239). -/
def execRnd (x : Nibble) (nn : Byte) (s : State) : Outcome State Fault Refusal :=
  .next (s.drawn.setV x (nn &&& s.randomByte))

end Sys2Proof.Machine
end

