-- ==== Sys2Proof/Machine/Control.lean ====
section
/-! DEFINITION. Control transfer: 00EE, 1NNN, 2NNN, BNNN (spec/41_control_transfer.md).  In every meaning `PC` is `A + 2`
(spec/40_cycle.md R92). -/

namespace Sys2Proof.Machine

open Host (Outcome)

/-- R100. -/
def execRet (x : Nibble) (s : State) : Outcome State Fault Refusal :=
  match s.popReturn with
  | none => .next (s.raise .stackUnderflow (.ret x) 0#16)
  | some (w, t) => .next (t.setPc w)

/-- R101. -/
def execJp (nnn : Addr12) (s : State) : Outcome State Fault Refusal :=
  .next (s.setPc (zext16 nnn))

/-- R102. -/
def execCall (nnn : Addr12) (s : State) : Outcome State Fault Refusal :=
  match s.pushReturn s.pc with
  | none => .next (s.raise .stackOverflow (.call nnn) 0#16)
  | some t => .next (t.setPc (zext16 nnn))

/-- R103. -/
def execJpV0 (nnn : Addr12) (s : State) : Outcome State Fault Refusal :=
  .next (s.setPc (zext16 (s.getV 0#4) + zext16 nnn))

end Sys2Proof.Machine
end

