-- ==== Sys2Proof/Machine/Display.lean ====
section
/-! DEFINITION. The framebuffer write controller: 00E0, DXYN (spec/45_display.md). -/

namespace Sys2Proof.Machine

open Host (Outcome)

/-- R170; `op[11:8]` is ignored. -/
def execCls (s : State) : Outcome State Fault Refusal :=
  .next { s with fb := Framebuffer.clear }

/-- What a sprite is drawn on: the framebuffer, and whether a pixel went from on to off so far (R175). -/
abbrev Canvas := Framebuffer × Bool

/-- A sprite bit of 1 on a pixel: a collision if the pixel is on, and the pixel is inverted (R173). -/
def Canvas.plot (c : Canvas) (x : Fin 64) (y : Fin 32) : Canvas :=
  (c.1.toggle x y, c.2 || c.1.pixel x y)

/-- The bits `left - 1` down to 0 of a sprite row, bit `k` at column `x0 + 7 - k` (R172).  With `clip` the row stops at the
first column at or above 64; without, the column wraps (R174, R176). -/
def Canvas.drawBits (clip : Bool) (sprite : Byte) (x0 : Nat) (y : Fin 32) : Nat → Canvas → Canvas
  | 0, c => c
  | k + 1, c =>
    if clip && decide (64 ≤ x0 + (7 - k)) then c
    else drawBits clip sprite x0 y k
      (if sprite.getLsbD k then c.plot (Fin.ofNat 64 (x0 + (7 - k))) y else c)

/-- The sprite rows in order, the first at display row `y` (R172).  The caller gives only the rows that are drawn; without
clipping the display row wraps (R176). -/
def Canvas.drawRows (clip : Bool) (x0 : Nat) : List Byte → Nat → Canvas → Canvas
  | [], _, c => c
  | sprite :: rest, y, c => drawRows clip x0 rest (y + 1) (c.drawBits clip sprite x0 (Fin.ofNat 32 y) 8)

/-- `x0 = VX mod 64`, the start column (R173). -/
def startColumn (b : Byte) : Nat := b.toNat % 64

/-- `y0 = VY mod 32`, the start row (R173). -/
def startRow (b : Byte) : Nat := b.toNat % 32

/-- How many of the N rows are drawn, and so read: those above row 32 when clipping, all of them otherwise
(R173, R176). -/
def drawnRows (clip : Bool) (y0 : Nat) (n : Nibble) : Nat := if clip then min n.toNat (32 - y0) else n.toNat

/-- VF after a draw: 1 on a collision, else 0, or its old value where VF is not cleared before the draw (R175, R176). -/
def collisionByte (vfReset : Bool) (old : Byte) (collision : Bool) : Byte :=
  if collision then 1#8 else if vfReset then 0#8 else old

/-- The canvas after the sprite of DXYN is drawn.  Drawing writes no memory, so the sprite bytes are read first
(log entry 28). -/
def State.drawSprite (s : State) (x y n : Nibble) : Canvas :=
  let y0 := startRow (s.getV y)
  Canvas.drawRows s.cfg.drawClip (startColumn (s.getV x))
    (s.loadBytes (s.ea 0) (drawnRows s.cfg.drawClip y0 n)) y0 (s.fb, false)

/-- Whether the drawn rows of DXYN lie in memory: there is none, or `I + rows - 1` is at or below 0x0FFF (R173). -/
def State.spriteInRange (s : State) (y n : Nibble) : Bool :=
  let rows := drawnRows s.cfg.drawClip (startRow (s.getV y)) n
  decide (rows = 0) || s.inRange (rows - 1)

/-- R173, R176. -/
def execDrw (x y n : Nibble) (s : State) : Outcome State Fault Refusal :=
  if s.spriteInRange y n then
    let c := s.drawSprite x y n
    .next { s.setV vf (collisionByte s.cfg.vfReset (s.getV vf) c.2) with fb := c.1 }
  else .next (s.raise .readBounds (.drw x y n) s.lowestOutOfRange)

end Sys2Proof.Machine
end

