-- ==== Sys2Proof/Machine/Index.lean ====
section
/-! DEFINITION. The index register and memory transfers: ANNN, FX1E, FX29, FX33, FX55, FX65 (spec/44_index_memory.md).
No access changes `I`. -/

namespace Sys2Proof.Machine

open Host (Outcome)

/-- R150. -/
def execLdI (nnn : Addr12) (s : State) : Outcome State Fault Refusal :=
  .next (s.setI (zext16 nnn))

/-- R151: mod 2^16, no flag (D4, D27). -/
def execAddIVx (x : Nibble) (s : State) : Outcome State Fault Refusal :=
  .next (s.setI (s.i + zext16 (s.getV x)))

/-- R152: all of VX, not its low nibble. -/
def execLdFVx (x : Nibble) (s : State) : Outcome State Fault Refusal :=
  .next (s.setI (glyphAddress (s.getV x)))

/-- R155. -/
def execLdBVx (x : Nibble) (s : State) : Outcome State Fault Refusal :=
  if s.inRange 2 then .next (s.storeBytes (s.ea 0) (decimalDigits (s.getV x)))
  else .next (s.raise .writeBounds (.ldBVx x) s.lowestOutOfRange)

/-- R156. -/
def execLdMemVx (x : Nibble) (s : State) : Outcome State Fault Refusal :=
  if s.inRange x.toNat then .next (s.storeBytes (s.ea 0) (s.regsUpTo x))
  else .next (s.raise .writeBounds (.ldMemVx x) s.lowestOutOfRange)

/-- R157. -/
def execLdVxMem (x : Nibble) (s : State) : Outcome State Fault Refusal :=
  if s.inRange x.toNat then .next (s.setVs (s.loadBytes (s.ea 0) (x.toNat + 1)))
  else .next (s.raise .readBounds (.ldVxMem x) s.lowestOutOfRange)

end Sys2Proof.Machine
end

