-- ==== Sys2Proof/Machine/Keypad.lean ====
section
/-! DEFINITION. Keypad and timer instructions: EX9E, EXA1, FX0A, FX07, FX15, FX18 (spec/46_keypad_timers.md). -/

namespace Sys2Proof.Machine

open Host (Outcome)

/-- R190, with the key check of R192. -/
def execSkp (x : Nibble) (s : State) : Outcome State Fault Refusal :=
  match keyIndex (s.getV x) with
  | none => .next (s.raise .keyRange (.skp x) (zext16 (s.getV x)))
  | some k => .next (s.skipIf s.keys[k])

/-- R191, with the key check of R192. -/
def execSknp (x : Nibble) (s : State) : Outcome State Fault Refusal :=
  match keyIndex (s.getV x) with
  | none => .next (s.raise .keyRange (.sknp x) (zext16 (s.getV x)))
  | some k => .next (s.skipIf (!s.keys[k]))

/-- R195. -/
def execLdVxDt (x : Nibble) (s : State) : Outcome State Fault Refusal :=
  .next (s.setV x s.dt)

/-- R193: with no key pressed the instruction is executed again. -/
def execLdVxK (x : Nibble) (s : State) : Outcome State Fault Refusal :=
  .next (match lowestKey s.keys with
    | some k => s.setV x (.ofNat 8 k.val)
    | none => s.rewind)

/-- R196. -/
def execLdDtVx (x : Nibble) (s : State) : Outcome State Fault Refusal :=
  .next (s.setDt (s.getV x))

/-- R197. -/
def execLdStVx (x : Nibble) (s : State) : Outcome State Fault Refusal :=
  .next (s.setSt (s.getV x))

end Sys2Proof.Machine
end

