-- ==== Sys2Proof/Machine/Skips.lean ====
section
/-! DEFINITION. Conditional skips: 3XNN, 4XNN, 5XY0, 9XY0 (spec/42_skips.md). -/

namespace Sys2Proof.Machine

open Host (Outcome)

/-- R110. -/
def execSeImm (x : Nibble) (nn : Byte) (s : State) : Outcome State Fault Refusal :=
  .next (s.skipIf (s.getV x == nn))

/-- R111. -/
def execSneImm (x : Nibble) (nn : Byte) (s : State) : Outcome State Fault Refusal :=
  .next (s.skipIf (s.getV x != nn))

/-- R112; `op[3:0]` is ignored. -/
def execSeReg (x y : Nibble) (s : State) : Outcome State Fault Refusal :=
  .next (s.skipIf (s.getV x == s.getV y))

/-- R113; `op[3:0]` is ignored. -/
def execSneReg (x y : Nibble) (s : State) : Outcome State Fault Refusal :=
  .next (s.skipIf (s.getV x != s.getV y))

end Sys2Proof.Machine
end

