-- ==== Sys2Proof/Machine/Cycle.lean ====
section
/-! DEFINITION. One step of the Execution Engine: fetch, advance, decode, execute (spec/40_cycle.md R90 to R99). -/

namespace Sys2Proof.Machine

open Host (Outcome)

/-- The next state changed by `f`; a fault or a refusal stays. -/
def mapNext (f : State → State) : Outcome State Fault Refusal → Outcome State Fault Refusal
  | .next t => .next (f t)
  | .fault r => .fault r
  | .refused r => .refused r

/-- Whether both bytes of the word at PC lie in memory: `PC ≤ 0x0FFE` (R91). -/
def State.canFetch (s : State) : Bool := decide (s.pc.toNat ≤ 0x0FFE)

/-- The word at PC, big-endian (R53). -/
def State.fetchWord (s : State) : Word := wordOfBytes (s.byteAt s.pc.toNat) (s.byteAt (s.pc.toNat + 1))

/-- `Fault(FETCH_BOUNDS)`: PC is not advanced and no word was fetched (R57, R91, R211). -/
def State.fetchFault (s : State) : State :=
  s.enterFault .fetchBounds s.pc 0#16 (if 0x0FFF < s.pc.toNat then s.pc else 0x1000#16)

/-- `Step()` of R99; it is called only while the machine is Running. -/
def instructionStep (s : State) : Outcome State Fault Refusal :=
  if s.canFetch then
    match decodeWord s.fetchWord with
    | .ok i => exec i s.advance
    | .error _ => .next s.advance
  else .next s.fetchFault

end Sys2Proof.Machine
end

