-- ==== Sys2Proof/Machine/Controller.lean ====
section
/-! DEFINITION. The Machine Controller: the timer tick, the frame, the run state and the host's turns
(spec/60_exceptions.md R230 to R236). -/

namespace Sys2Proof.Machine

open Host (Outcome)

/-- `STEPS_PER_FRAME = floor(IPS / 60)` (R232; D21). -/
def stepsPerFrame (c : Config) : Nat := c.ips / 60

/-- One tick of a timer: down by one, and a timer at 0 stays (R230). -/
def tickByte (b : Byte) : Byte := if b = 0#8 then b else b - 1#8

/-- `TimerTick()` (R230). -/
def State.tick (s : State) : State := { s with dt := tickByte s.dt, st := tickByte s.st }

/-- The transition table of R234 for the host's commands; a fault is the only other transition. -/
def applyCommand : HostCommand → RunState → RunState
  | .none, r => r
  | .pause, .running => .paused
  | .pause, r => r
  | .resume, .paused => .running
  | .resume, r => r
  | .quit, .running => .quit
  | .quit, .paused => .quit
  | .quit, r => r

/-! ## The frame as the spec writes it (R232) -/

/-- The loop of `Frame`: up to `n` steps, then the tick; a fault ends the frame without a tick (R220). -/
def frameSteps : Nat → State → Outcome State Fault Refusal
  | 0, s => .next s.tick
  | n + 1, s =>
    match instructionStep s with
    | .next t => if t.runState = .faulted then .next t else frameSteps n t
    | o => o

/-- `Frame(hostKeys)` (R232, R233). -/
def frame (keys : Vector Bool 16) (s : State) : Outcome State Fault Refusal :=
  if s.runState = .running then frameSteps (stepsPerFrame s.cfg) { s with keys := keys }
  else .next s

/-! ## The same frame, one step at a time -/

/-- The host's next turn: the next listed one, or no command and a free key state (log entry 3). -/
def State.nextTurn (s : State) : HostTurn := s.host.headD ⟨.none, Config.freeKeys s.turns⟩

/-- The turn is taken and its command applied (R234). -/
def State.takeTurn (s : State) : State :=
  { s with host := s.host.tail, turns := s.turns + 1, runState := applyCommand s.nextTurn.cmd s.runState }

/-- `Frame` is invoked with a key state: while Running the keys are latched and the frame's steps are counted out
(R232, R233); otherwise it returns at once. -/
def State.openFrame (s : State) (keys : Vector Bool 16) : State :=
  if s.runState = .running then { s with keys := keys, frameLeft := stepsPerFrame s.cfg }
  else { s with frameLeft := 0 }

/-- Between frames the host takes a turn: a command, then an invocation of `Frame` (log entry 26). -/
def State.hostTurn (s : State) : State := s.takeTurn.openFrame s.nextTurn.keys

/-- Whether an instruction step of an open frame comes next. -/
def State.midFrame (s : State) : Bool := decide (s.runState = .running) && decide (s.frameLeft ≠ 0)

/-- The state in which the next instruction step is taken: this one inside a frame, the one after the host's turn
between frames. -/
def State.enterFrame (s : State) : State := if s.midFrame then s else s.hostTurn

/-- The controller after an instruction step: a fault ends the frame without a tick (R220), the last step of a frame is
followed by the tick (R230), any other step is counted. -/
def State.endStep (s : State) : State :=
  if s.runState = .faulted then { s with frameLeft := 0 }
  else if s.frameLeft ≤ 1 then ({ s with frameLeft := 0 } : State).tick
  else { s with frameLeft := s.frameLeft - 1 }

/-- A frame without a step: while Running (STEPS_PER_FRAME = 0, D21) it only ticks; otherwise nothing happens. -/
def State.emptyFrame (s : State) : State := if s.runState = .running then s.tick else s

/-- One step of the whole machine: the host's turn where a frame ends, one `Step()` of an open frame, and the tick after
its last one (log entry 2). -/
def controllerStep (s : State) : Outcome State Fault Refusal :=
  if s.enterFrame.midFrame then mapNext State.endStep (instructionStep s.enterFrame)
  else .next s.enterFrame.emptyFrame

end Sys2Proof.Machine
end

