-- ==== Sys2Proof/Machine/Outputs.lean ====
section
/-! DEFINITION. The outputs of the core (spec/60_exceptions.md R236 to R240): functions of the state with no effect on it.
The run state and the `FAULT` record are output as they stand; the load error is `boot`'s. -/

namespace Sys2Proof.Machine

/-- `sound_active` (spec/10_state.md R32, R238). -/
def State.soundActive (s : State) : Bool := s.st != 0#8

/-- `fb`: the pixel in column `x`, row `y` (R237). -/
def State.pixel (s : State) (x : Fin 64) (y : Fin 32) : Bool := s.fb.pixel x y

/-- A record of the optional trace (R240, D25). -/
structure TraceRecord where
  address : Word
  op : Word
  x : Nibble
  y : Nibble
  n : Nibble
  nn : Byte
  nnn : Addr12
  deriving DecidableEq, Repr

/-- The trace record of the instruction step taken in `s`, none where its fetch faults (R240). -/
def State.traceRecord (s : State) : Option TraceRecord :=
  if s.canFetch then
    let w := s.fetchWord
    some ⟨s.pc, w, fieldX w, fieldY w, fieldN w, fieldNN w, fieldNNN w⟩
  else none

end Sys2Proof.Machine
end

