-- ==== Sys2Proof/Machine/Step.lean ====
section
/-! DEFINITION. The step of the machine, and the placing of a word where it fetches next. -/

namespace Sys2Proof.Machine

/-- One step (log entry 2): while the machine is Running and a frame has steps, exactly one `Step()` of
spec/40_cycle.md R99. -/
def step (s : State) : Host.Outcome State Fault Refusal := controllerStep s

/-- `s` with a frame open, its keys not latched anew; its PC set to 0x200 where the fetch would fault (log entry 27). -/
def State.readyToFetch (s : State) : State :=
  let t := if s.canFetch then s else s.setPc 0x200#16
  if t.midFrame then t else { t with runState := .running, frameLeft := max 1 (stepsPerFrame t.cfg) }

/-- `s` with the instruction word of `nbits` bits `w` stored at PC, high byte first (spec/20_memory.md R53), and ready to
fetch it at the very next step (log entry 27). -/
def State.withFetchWord (s : State) (nbits w : Nat) : State :=
  s.readyToFetch.storeBytes s.readyToFetch.pc.toNat (bytesOfWord (.ofNat 16 (w % 2 ^ nbits)))

end Sys2Proof.Machine
end

