-- ==== Sys2Proof/Safety.lean ====
section
/-! DEFINITION. What claims about the machine are stated in: the invariant of its states, safe states, and what two states
have in common. -/

namespace Sys2Proof.Machine

/-- The invariant of the machine's states. -/
structure State.Inv (s : State) : Prop where
  /-- Memory is in its canonical form. -/
  memCanonical : s.mem.wf = true
  /-- The run state is Faulted exactly when FAULT holds a fault (spec/10_state.md R35, R36). -/
  faultedIff : s.runState = .faulted ↔ s.fault.code ≠ none
  /-- FAULT holds its reset values until a fault is raised (R36, R40). -/
  faultBlank : s.fault.code = none → s.fault = .blank
  /-- Only a Running machine is inside a frame (spec/60_exceptions.md R232). -/
  frameRunning : s.frameLeft ≠ 0 → s.runState = .running
  /-- A frame has no more steps left than it started with (R232). -/
  frameBound : s.frameLeft ≤ stepsPerFrame s.cfg
  /-- The largest PC any instruction can store is 0x10FE (spec/10_state.md R29). -/
  pcBound : s.pc.toNat ≤ 0x10FE
  /-- A valid stack entry was pushed as `A + 2` by a CALL: it lies in 0x0002-0x1000 (spec/41_control_transfer.md R100). -/
  returns : ∀ k : Fin 12, k.val < s.sp.val → 2 ≤ s.stack[k].toNat ∧ s.stack[k].toNat ≤ 0x1000

/-- A state in which no fault has stopped the machine. -/
def State.Safe (s : State) : Prop := s.runState ≠ .faulted

/-- Every byte of memory reads the same in both states. -/
def SameBytes (s t : State) : Prop := ∀ a, t.byteAt a = s.byteAt a

/-- Every byte outside the `n` bytes at `a` reads the same in both states. -/
def SameBytesOutside (a n : Nat) (s t : State) : Prop := ∀ b, b < a ∨ a + n ≤ b → t.byteAt b = s.byteAt b

end Sys2Proof.Machine
end

