-- ==== Sys2Proof/Certificates/Slice0/Obligations.lean ====
section
/-! DEFINITION. The statements for the provers.  An instruction is stated at the start of its execute phase, where `PC` is
`A + 2` (spec/40_cycle.md R92); `StepRunsDecodedInstruction` carries it to `step`.  Results are stated over the numbers the
registers hold, not through the model's own operations. -/

open Sys2Proof Sys2Proof.Machine
open Host (Outcome)

namespace Sys2Proof.Claim

/-! ## The spec's tables, written again from its text -/

/-- The registers an instruction writes: the right column of the table of spec/10_state.md R23. -/
def writesV : Instr → Nibble → Prop
  | .ldImm x _, r | .addImm x _, r | .ldReg x _, r | .or x _, r | .and x _, r | .xor x _, r | .rnd x _, r
  | .ldVxDt x, r | .ldVxK x, r => r = x
  | .addReg x _, r | .sub x _, r | .shr x _, r | .subn x _, r | .shl x _, r => r = x ∨ r = 0xF#4
  | .drw _ _ _, r => r = 0xF#4
  | .ldVxMem x, r => r.toNat ≤ x.toNat
  | _, _ => False

/-- The bytes of memory an instruction stores to: the write rows of the table of spec/20_memory.md R52, from the address
the meaning uses. -/
def storesTo : Instr → State → Nat → Prop
  | .ldBVx _, s, a => s.ea 0 ≤ a ∧ a ≤ s.ea 2
  | .ldMemVx x, s, a => s.ea 0 ≤ a ∧ a ≤ s.ea x.toNat
  | _, _, _ => False

/-- How many rows of a sprite are drawn (spec/45_display.md R173, R176). -/
def rowsDrawn (s : State) (y n : Nibble) : Nat :=
  if s.cfg.drawClip then min n.toNat (32 - (s.getV y).toNat % 32) else n.toNat

/-- The fault of an execute phase with its `FAULT.addr`: the table of spec/60_exceptions.md R211. -/
def faultCause : Instr → State → Option (Fault × Word)
  | .ret _, s => if s.sp.val = 0 then some (.stackUnderflow, 0#16) else none
  | .call _, s => if s.sp.val = 12 then some (.stackOverflow, 0#16) else none
  | .skp x, s | .sknp x, s =>
    if 0x0F < (s.getV x).toNat then some (.keyRange, .ofNat 16 (s.getV x).toNat) else none
  | .ldBVx _, s =>
    if 0x0FFF < s.i.toNat + 2 then some (.writeBounds, .ofNat 16 (max s.i.toNat 0x1000)) else none
  | .ldMemVx x, s =>
    if 0x0FFF < s.i.toNat + x.toNat then some (.writeBounds, .ofNat 16 (max s.i.toNat 0x1000)) else none
  | .ldVxMem x, s =>
    if 0x0FFF < s.i.toNat + x.toNat then some (.readBounds, .ofNat 16 (max s.i.toNat 0x1000)) else none
  | .drw _ y n, s =>
    if 0 < rowsDrawn s y n ∧ 0x0FFF < s.i.toNat + rowsDrawn s y n - 1 then
      some (.readBounds, .ofNat 16 (max s.i.toNat 0x1000))
    else none
  | _, _ => none

/-- Whether a sprite has a 1 bit on the pixel in column `c`, row `r` (spec/45_display.md R172, R173, R176). -/
def spriteBit (s : State) (x y n : Nibble) (c r : Nat) : Bool :=
  let x0 := (s.getV x).toNat % 64
  let y0 := (s.getV y).toNat % 32
  let dx := (c + 64 - x0) % 64
  let dy := (r + 32 - y0) % 32
  (!s.cfg.drawClip || (decide (x0 ≤ c) && decide (y0 ≤ r))) &&
    (decide (dx < 8) && decide (dy < n.toNat) && (s.byteAt (s.i.toNat + dy)).getLsbD (7 - dx))

/-- Fault entry in an execute phase (spec/60_exceptions.md R220): FAULT and the run state are written, nothing else. -/
def faultedBy (s : State) (c : Fault) (op addr : Word) : State :=
  { s with runState := .faulted, fault := ⟨some c, s.pc - 2#16, op, addr⟩ }

/-- Running `i` at `s` completes, with `P` of the next state. -/
def Completes (i : Instr) (s : State) (P : State → Prop) : Prop :=
  ∃ t, exec i s = .next t ∧ P t

/-- The instruction completes and only `PC` changes. -/
def OnlySetsPc (i : Instr) (s : State) (target : Nat) : Prop :=
  Completes i s fun t => t.pc.toNat = target ∧ t = { s with pc := t.pc }

/-- The flag and result of 8XY4 to 8XYE: VX holds the result, and VF the flag unless it is VX itself
(spec/40_cycle.md R96; D9, log entry 17). -/
def FlagAndResult (i : Instr) (s : State) (x : Nibble) (flag : Prop) (result : Nat) : Prop :=
  Completes i s fun t => (t.getV x).toNat = result ∧
    (x ≠ 0xF#4 → (flag → t.getV 0xF#4 = 1#8) ∧ (¬ flag → t.getV 0xF#4 = 0#8))

end Sys2Proof.Claim

open Sys2Proof.Claim

/-! ## Encoding -/

/-- Decoding an encoded instruction gives it back, alone and in front of other bytes (R72, R85).
Also rests on D7 and D8 (log entry 16). -/
def Obligations.DecodeOfEncodeGivesBackInstruction : Prop :=
  ∀ i : Instr, decodeWord (encode i) = .ok i ∧ ∀ rest, decode (encodeBytes i ++ rest) = .ok (i, rest)

/-- A word that decodes is the encoding of what it decodes to, so no bit of a word is dropped.
Also rests on D7 and D8 (log entry 16). -/
def Obligations.EncodeOfDecodeGivesBackWord : Prop :=
  ∀ (w : Word) (i : Instr), decodeWord w = .ok i → encode i = w

/-- A word decodes to a row's instruction exactly when it matches the row's mask and match, and is unrecognized exactly when
it matches no row.  Rests on the dispatch decisions D7 and D8 (log entry 16). -/
def Obligations.WordDecodesToRowExactlyWhenMaskMatches : Prop :=
  ∀ w : Word,
    (∀ m : Mnemonic, (w &&& m.row.mask = m.row.value ↔ ∃ i, decodeWord w = .ok i ∧ i.mnemonic = m)) ∧
    (decodeWord w = .error .unrecognized ↔ ∀ m : Mnemonic, w &&& m.row.mask ≠ m.row.value)

/-- The fields are the document's masks and shifts (R71). -/
def Obligations.FieldsAreMasksAndShifts : Prop :=
  ∀ w : Word,
    (fieldNNN w).setWidth 16 = w &&& 0x0FFF#16 ∧ (fieldNN w).setWidth 16 = w &&& 0x00FF#16 ∧
    (fieldN w).setWidth 16 = w &&& 0x000F#16 ∧ (fieldX w).setWidth 16 = (w >>> 8) &&& 0xF#16 ∧
    (fieldY w).setWidth 16 = (w >>> 4) &&& 0xF#16 ∧ (fieldF w).setWidth 16 = (w >>> 12) &&& 0xF#16

/-- Words written out bit by bit from the encodings of each family, and a word of the no-op space. -/
def Obligations.SpecWordsDecode : Prop :=
  decodeWord 0b0000000011101110#16 = .ok (.ret 0) ∧ decodeWord 0b0010001100000000#16 = .ok (.call 0x300) ∧
  decodeWord 0b0011001101000010#16 = .ok (.seImm 3 0x42) ∧ decodeWord 0b0110101001000010#16 = .ok (.ldImm 0xA 0x42) ∧
  decodeWord 0b1000111100010101#16 = .ok (.sub 0xF 1) ∧ decodeWord 0b1101000000010101#16 = .ok (.drw 0 1 5) ∧
  decodeWord 0b1110010110100001#16 = .ok (.sknp 5) ∧ decodeWord 0b1111001001100101#16 = .ok (.ldVxMem 2) ∧
  decodeWord 0b1000000100101000#16 = .error .unrecognized

/-- An assembler line within its operand widths has a word, which decodes to the line's mnemonic; any other line is refused
(R84, D23). -/
def Obligations.AssembledLineDecodesToItsMnemonic : Prop :=
  ∀ (m : Mnemonic) (o : Operands),
    ((o.x < 16 ∧ o.y < 16 ∧ o.n < 16 ∧ o.nn < 256 ∧ o.nnn < 4096) →
      ∃ w i, (SourceLine.op m o).assemble = some w ∧ decodeWord w = .ok i ∧ i.mnemonic = m) ∧
    (¬ (o.x < 16 ∧ o.y < 16 ∧ o.n < 16 ∧ o.nn < 256 ∧ o.nnn < 4096) → (SourceLine.op m o).assemble = none)

/-! ## The instruction cycle -/

/-- A step runs the decoded instruction: `e` is the state itself inside a frame, and between frames the state after the host's
turn.  The instruction runs on `e` with PC advanced by 2; `endStep` is the controller's count, and the tick after the frame's
last step (log entry 2).
Also rests on D6, D12, D14, D15 and D24 (log entries 1, 15, 20, 24 and 26). -/
def Obligations.StepRunsDecodedInstruction : Prop :=
  (∀ (s : State) (i : Instr), s.enterFrame.midFrame = true → s.enterFrame.pc.toNat ≤ 0x0FFE →
    decodeWord s.enterFrame.fetchWord = .ok i →
    step s = mapNext State.endStep (exec i { s.enterFrame with pc := s.enterFrame.pc + 2#16 })) ∧
  (∀ s : State, s.midFrame = true → s.enterFrame = s) ∧
  (∀ s : State, s.midFrame = false → s.enterFrame = s.hostTurn)

/-- PC is `A + 2` when the execute phase starts, whatever word was fetched (R92).  Fetch and advance change nothing else
(R55, D16), and an unrecognized word leaves that state as it is (R80).
Also rests on D6, D7, D8 and D16 (log entries 15, 16 and 30). -/
def Obligations.PcIsAdvancedBeforeExecute : Prop :=
  ∀ s : State, s.pc.toNat ≤ 0x0FFE → ∃ e : State, e.pc.toNat = s.pc.toNat + 2 ∧ e = { s with pc := e.pc } ∧
    (∀ i, decodeWord s.fetchWord = .ok i → instructionStep s = exec i e) ∧
    (∀ r, decodeWord s.fetchWord = .error r → instructionStep s = .next e)

/-- The word at PC has its high byte at PC and its low byte at PC + 1.  A fetch above 0x0FFE faults with PC unchanged, and
writes only FAULT and the run state (D1, D6; log entry 11). -/
def Obligations.FetchIsBigEndianAndBounded : Prop :=
  (∀ s : State, s.fetchWord.toNat = (s.byteAt s.pc.toNat).toNat * 256 + (s.byteAt (s.pc.toNat + 1)).toNat) ∧
  ∀ s : State, 0x0FFE < s.pc.toNat →
    ∃ t, instructionStep s = .next t ∧ t.runState = .faulted ∧ t.pc = s.pc ∧
      t.fault = ⟨some .fetchBounds, s.pc, 0#16, .ofNat 16 (max s.pc.toNat 0x1000)⟩ ∧
      t = { s with runState := t.runState, fault := t.fault }

/-- An unrecognized word advances PC by 2 and changes nothing else.
Also rests on D6, D8 and D16 (log entries 15, 16 and 30). -/
def Obligations.UnrecognizedWordOnlyAdvancesPc : Prop :=
  ∀ s : State, s.pc.toNat ≤ 0x0FFE → decodeWord s.fetchWord = .error .unrecognized →
    ∃ t, instructionStep s = .next t ∧ t.pc.toNat = s.pc.toNat + 2 ∧ t = { s with pc := t.pc }

/-- A word placed by `withFetchWord` is the word the very next step fetches (log entry 27).
Also rests on D6 (log entry 15). -/
def Obligations.PlacedWordIsFetchedNext : Prop :=
  ∀ (s : State) (w : Nat), s.mem.wf = true → w < 65536 →
    (s.withFetchWord 16 w).enterFrame = s.withFetchWord 16 w ∧ (s.withFetchWord 16 w).midFrame = true ∧
    (s.withFetchWord 16 w).pc.toNat ≤ 0x0FFE ∧ (s.withFetchWord 16 w).fetchWord.toNat = w

/-! ## Control transfer -/

/-- 1NNN: PC becomes NNN.  That nothing else changes is D27's (log entry 22). -/
def Obligations.JumpSetsPcToAddress : Prop :=
  ∀ (s : State) (nnn : Addr12), decodeWord (packNNN 0x1#4 nnn) = .ok (.jp nnn) ∧ OnlySetsPc (.jp nnn) s nnn.toNat

/-- BNNN: PC becomes V0 + NNN, unmasked (D6, log entry 15).
That nothing else changes is D27's (log entry 22). -/
def Obligations.IndexedJumpAddsV0 : Prop :=
  ∀ (s : State) (nnn : Addr12), decodeWord (packNNN 0xB#4 nnn) = .ok (.jpV0 nnn) ∧
    OnlySetsPc (.jpV0 nnn) s ((s.getV 0#4).toNat + nnn.toNat)

/-- 2NNN: with room on the stack the return address is pushed and PC becomes NNN; on a full stack it faults with nothing
pushed (D2, log entry 12).
That nothing else changes is D27's (log entry 22). -/
def Obligations.CallPushesReturnAddress : Prop :=
  ∀ (s : State) (nnn : Addr12),
    (∀ h : s.sp.val < 12, Completes (.call nnn) s fun t =>
      t.pc.toNat = nnn.toNat ∧ t.sp.val = s.sp.val + 1 ∧ t.stack[s.sp.val] = s.pc ∧
      (∀ k : Fin 12, k.val ≠ s.sp.val → t.stack[k] = s.stack[k]) ∧
      t = { s with pc := t.pc, sp := t.sp, stack := t.stack }) ∧
    (s.sp.val = 12 → Completes (.call nnn) s fun t =>
      t = faultedBy s .stackOverflow (packNNN 0x2#4 nnn) 0#16)

/-- 00EE: with an entry on the stack it is popped into PC and not cleared; on an empty stack it faults
(D2, log entry 12).
That nothing else changes is D27's (log entry 22). -/
def Obligations.ReturnPopsIntoPc : Prop :=
  ∀ (s : State) (x : Nibble),
    (∀ k : Fin 12, s.sp.val = k.val + 1 → Completes (.ret x) s fun t =>
      t.pc = s.stack[k] ∧ t.sp.val = k.val ∧ t = { s with pc := t.pc, sp := t.sp }) ∧
    (s.sp.val = 0 → Completes (.ret x) s fun t =>
      t = faultedBy s .stackUnderflow (packXNN 0x0#4 x 0xEE#8) 0#16)

/-- A 2NNN followed by its matching 00EE (nothing in between changed the stack for good) resumes right after the 2NNN.
Also rests on D2 (log entry 12). -/
def Obligations.CallThenReturnResumesAfterCall : Prop :=
  ∀ (s t u : State) (nnn : Addr12) (x : Nibble), s.sp.val < 12 → exec (.call nnn) s = .next t →
    u.stack = t.stack → u.sp = t.sp → Completes (.ret x) u fun r => r.pc = s.pc ∧ r.sp = s.sp

/-! ## Skips -/

/-- 3XNN and 4XNN: exactly one of them adds 2 to PC.  That nothing else changes is D27's (log entry 22). -/
def Obligations.ImmediateSkipsCompareVx : Prop :=
  ∀ (s : State) (x : Nibble) (nn : Byte),
    decodeWord (packXNN 0x3#4 x nn) = .ok (.seImm x nn) ∧ decodeWord (packXNN 0x4#4 x nn) = .ok (.sneImm x nn) ∧
    ((s.getV x).toNat = nn.toNat →
      exec (.seImm x nn) s = .next { s with pc := s.pc + 2#16 } ∧ exec (.sneImm x nn) s = .next s) ∧
    ((s.getV x).toNat ≠ nn.toNat →
      exec (.seImm x nn) s = .next s ∧ exec (.sneImm x nn) s = .next { s with pc := s.pc + 2#16 })

/-- 5XYN and 9XYN, whatever N is: exactly one of them adds 2 to PC (N ignored: D8, log entry 16).
That nothing else changes is D27's (log entry 22). -/
def Obligations.RegisterSkipsCompareVxVy : Prop :=
  ∀ (s : State) (x y n : Nibble),
    decodeWord (packXYN 0x5#4 x y n) = .ok (.seReg x y n) ∧ decodeWord (packXYN 0x9#4 x y n) = .ok (.sneReg x y n) ∧
    ((s.getV x).toNat = (s.getV y).toNat →
      exec (.seReg x y n) s = .next { s with pc := s.pc + 2#16 } ∧ exec (.sneReg x y n) s = .next s) ∧
    ((s.getV x).toNat ≠ (s.getV y).toNat →
      exec (.seReg x y n) s = .next s ∧ exec (.sneReg x y n) s = .next { s with pc := s.pc + 2#16 })

/-! ## Register and ALU operations -/

/-- 6XNN: VX reads NN.  8XY0: VX reads what VY held.  PC stays A + 2, and VF changes only when X = 0xF. -/
def Obligations.LoadsWriteVx : Prop :=
  ∀ (s : State) (x y : Nibble) (nn : Byte),
    decodeWord (packXNN 0x6#4 x nn) = .ok (.ldImm x nn) ∧ decodeWord (packXYN 0x8#4 x y 0x0#4) = .ok (.ldReg x y) ∧
    (Completes (.ldImm x nn) s fun t =>
      t.getV x = nn ∧ t.pc = s.pc ∧ (x ≠ 0xF#4 → t.getV 0xF#4 = s.getV 0xF#4)) ∧
    Completes (.ldReg x y) s fun t =>
      t.getV x = s.getV y ∧ t.pc = s.pc ∧ (x ≠ 0xF#4 → t.getV 0xF#4 = s.getV 0xF#4)

/-- 7XNN: VX becomes (VX + NN) mod 256, and VF keeps its value unless X = 0xF. -/
def Obligations.AddImmediateWrapsWithoutFlag : Prop :=
  ∀ (s : State) (x : Nibble) (nn : Byte), decodeWord (packXNN 0x7#4 x nn) = .ok (.addImm x nn) ∧
    Completes (.addImm x nn) s fun t =>
      (t.getV x).toNat = ((s.getV x).toNat + nn.toNat) % 256 ∧ t.pc = s.pc ∧
      (x ≠ 0xF#4 → t.getV 0xF#4 = s.getV 0xF#4)

/-- 8XY1, 8XY2, 8XY3: every bit of VX becomes the OR, AND, XOR of the two bits; VF is unchanged unless X = 0xF (D27, log
entry 22). -/
def Obligations.LogicCombinesBitsWithoutFlag : Prop :=
  ∀ (s : State) (x y : Nibble),
    (Completes (.or x y) s fun t => (∀ k, (t.getV x).getLsbD k = ((s.getV x).getLsbD k || (s.getV y).getLsbD k)) ∧
      (x ≠ 0xF#4 → t.getV 0xF#4 = s.getV 0xF#4)) ∧
    (Completes (.and x y) s fun t => (∀ k, (t.getV x).getLsbD k = ((s.getV x).getLsbD k && (s.getV y).getLsbD k)) ∧
      (x ≠ 0xF#4 → t.getV 0xF#4 = s.getV 0xF#4)) ∧
    (Completes (.xor x y) s fun t => (∀ k, (t.getV x).getLsbD k = ((s.getV x).getLsbD k ^^ (s.getV y).getLsbD k)) ∧
      (x ≠ 0xF#4 → t.getV 0xF#4 = s.getV 0xF#4))

/-- 8XY4: the sum mod 256 and the carry, both from the operands before any write (D9, log entry 17). -/
def Obligations.AddRegistersWithCarry : Prop :=
  ∀ (s : State) (x y : Nibble), FlagAndResult (.addReg x y) s x (255 < (s.getV x).toNat + (s.getV y).toNat)
    (((s.getV x).toNat + (s.getV y).toNat) % 256)

/-- 8XY5 and 8XY7: the difference mod 256 and NOT borrow, both from the operands before any write (D9, log entry 17). -/
def Obligations.SubtractsWithNotBorrow : Prop :=
  ∀ (s : State) (x y : Nibble),
    FlagAndResult (.sub x y) s x ((s.getV y).toNat ≤ (s.getV x).toNat)
      (((s.getV x).toNat + 256 - (s.getV y).toNat) % 256) ∧
    FlagAndResult (.subn x y) s x ((s.getV x).toNat ≤ (s.getV y).toNat)
      (((s.getV y).toNat + 256 - (s.getV x).toNat) % 256)

/-- 8XY6 and 8XYE: half and double mod 256 with the bit moved out; VY is not read (D9, log entry 17). -/
def Obligations.ShiftsMoveOneBitIntoFlag : Prop :=
  ∀ (s : State) (x y : Nibble),
    FlagAndResult (.shr x y) s x ((s.getV x).toNat % 2 = 1) ((s.getV x).toNat / 2) ∧
    FlagAndResult (.shl x y) s x (128 ≤ (s.getV x).toNat) ((s.getV x).toNat * 2 % 256)

/-- CXNN: VX becomes NN AND the next random byte, whatever that byte is; exactly one byte is drawn, also when NN = 0
(D19, log entry 4). -/
def Obligations.RandomByteIsMaskedByNN : Prop :=
  ∀ (s : State) (x : Nibble) (nn b : Byte) (rest : List Byte),
    (Completes (.rnd x nn) s fun t => t.getV x = nn &&& s.randomByte ∧ t.draws = s.draws + 1) ∧
    (s.rnd = b :: rest → Completes (.rnd x nn) s fun t => t.getV x = nn &&& b ∧ t.rnd = rest)

/-! ## Index register and memory -/

/-- ANNN: I becomes NNN.  That nothing else changes is D27's (log entry 22). -/
def Obligations.LoadIndexWritesAddress : Prop :=
  ∀ (s : State) (nnn : Addr12), decodeWord (packNNN 0xA#4 nnn) = .ok (.ldI nnn) ∧
    Completes (.ldI nnn) s fun t => t.i.toNat = nnn.toNat ∧ t = { s with i := t.i }

/-- FX1E: I becomes (I + VX) mod 2^16, with no flag and no fault (D4, D27; log entries 14 and 22). -/
def Obligations.AddToIndexWrapsAt16Bits : Prop :=
  ∀ (s : State) (x : Nibble), Completes (.addIVx x) s fun t =>
    t.i.toNat = (s.i.toNat + (s.getV x).toNat) % 65536 ∧ t = { s with i := t.i }

/-- FX29: I becomes VX * 5, for every VX.  That nothing else changes is D27's (log entry 22). -/
def Obligations.FontAddressIsFiveTimesVx : Prop :=
  ∀ (s : State) (x : Nibble), decodeWord (packXNN 0xF#4 x 0x29#8) = .ok (.ldFVx x) ∧
    Completes (.ldFVx x) s fun t => t.i.toNat = (s.getV x).toNat * 5 ∧ t = { s with i := t.i }

/-- FX33 in range: the three bytes at I are the decimal digits of VX, every other byte and everything else is as before.
The bound is D1's (log entry 11).
That nothing else changes is D27's (log entry 22). -/
def Obligations.DecimalDigitsAreStoredAtIndex : Prop :=
  ∀ (s : State) (x : Nibble), s.mem.wf = true → s.i.toNat + 2 ≤ 0x0FFF → Completes (.ldBVx x) s fun t =>
    (t.byteAt (s.ea 0)).toNat * 100 + (t.byteAt (s.ea 1)).toNat * 10 + (t.byteAt (s.ea 2)).toNat = (s.getV x).toNat ∧
    (t.byteAt (s.ea 1)).toNat ≤ 9 ∧ (t.byteAt (s.ea 2)).toNat ≤ 9 ∧
    SameBytesOutside (s.ea 0) 3 s t ∧ t = { s with mem := t.mem }

/-- FX55 in range: byte I + k is V[k] for k up to X, every other byte and everything else is as before.  The bound is D1's
(log entry 11).
That nothing else changes is D27's (log entry 22). -/
def Obligations.RegistersAreStoredAtIndex : Prop :=
  ∀ (s : State) (x : Nibble), s.mem.wf = true → s.i.toNat + x.toNat ≤ 0x0FFF → Completes (.ldMemVx x) s fun t =>
    (∀ k : Nibble, k.toNat ≤ x.toNat → t.byteAt (s.ea k.toNat) = s.getV k) ∧
    SameBytesOutside (s.ea 0) (x.toNat + 1) s t ∧ t = { s with mem := t.mem }

/-- FX65 in range: V[k] is byte I + k for k up to X, every other register and everything else is as before.  The bound is
D1's (log entry 11).
That nothing else changes is D27's (log entry 22). -/
def Obligations.RegistersAreLoadedFromIndex : Prop :=
  ∀ (s : State) (x : Nibble), s.i.toNat + x.toNat ≤ 0x0FFF → Completes (.ldVxMem x) s fun t =>
    (∀ k : Nibble, k.toNat ≤ x.toNat → t.getV k = s.byteAt (s.ea k.toNat)) ∧
    (∀ k : Nibble, x.toNat < k.toNat → t.getV k = s.getV k) ∧ SameBytes s t ∧ t = { s with v := t.v }

/-- What FX55 stored, FX65 loads back: V0..VX return, whatever the registers held in between.
Also rests on D1 and D5 (log entry 11). -/
def Obligations.StoredRegistersLoadBack : Prop :=
  ∀ (s t u : State) (x : Nibble), s.mem.wf = true → s.i.toNat + x.toNat ≤ 0x0FFF →
    exec (.ldMemVx x) s = .next t → u.mem = t.mem → u.i = s.i →
    Completes (.ldVxMem x) u fun r => ∀ k : Nibble, k.toNat ≤ x.toNat → r.getV k = s.getV k

/-- Two registers stored by FX55 are fetched as one word by a later fetch at their address (R66; D16, log entry 30).
Also rests on D1, D5 and D6 (log entries 11 and 15). -/
def Obligations.StoredBytesAreFetchedAsCode : Prop :=
  ∀ (s t u : State) (x k l : Nibble), s.mem.wf = true → s.i.toNat + x.toNat ≤ 0x0FFF →
    exec (.ldMemVx x) s = .next t → l.toNat = k.toNat + 1 → l.toNat ≤ x.toNat →
    u.mem = t.mem → u.pc.toNat = s.i.toNat + k.toNat →
    u.fetchWord.toNat = (s.getV k).toNat * 256 + (s.getV l).toNat

/-! ## Display -/

/-- 00E0: every pixel is off and nothing else changes.
That nothing else changes is D27's (log entry 22). -/
def Obligations.ClearTurnsEveryPixelOff : Prop :=
  ∀ (s : State) (x : Nibble), decodeWord (packXNN 0x0#4 x 0xE0#8) = .ok (.cls x) ∧
    Completes (.cls x) s fun t => (∀ c r, t.pixel c r = false) ∧ t = { s with fb := t.fb }

/-- DXYN in range: every pixel is inverted exactly where the sprite has a 1 bit, in both settings of QUIRK_DRAW_CLIP; only the
framebuffer and VF change (D10, D20; log entry 18).
That nothing else changes is D27's (log entry 22).
Also rests on D1 and D5 (log entry 11). -/
def Obligations.DrawInvertsPixelsUnderSprite : Prop :=
  ∀ (s : State) (x y n : Nibble), faultCause (.drw x y n) s = none → Completes (.drw x y n) s fun t =>
    (∀ (c : Fin 64) (r : Fin 32), t.pixel c r = (s.pixel c r ^^ spriteBit s x y n c.val r.val)) ∧
    (∀ k, k ≠ 0xF#4 → t.getV k = s.getV k) ∧ SameBytes s t ∧ t = { s with fb := t.fb, v := t.v }

/-- DXYN in range: VF is 1 when a pixel went from on to off, and otherwise 0, or its old value when QUIRK_VF_RESET is off
(D10, D20; log entry 18).
Also rests on D1, D5 and D10 (log entries 11 and 18). -/
def Obligations.DrawSetsFlagOnCollision : Prop :=
  ∀ (s : State) (x y n : Nibble), faultCause (.drw x y n) s = none → Completes (.drw x y n) s fun t =>
    ((∃ (c : Fin 64) (r : Fin 32), s.pixel c r = true ∧ spriteBit s x y n c.val r.val = true) → t.getV 0xF#4 = 1#8) ∧
    ((∀ (c : Fin 64) (r : Fin 32), ¬ (s.pixel c r = true ∧ spriteBit s x y n c.val r.val = true)) →
      t.getV 0xF#4 = if s.cfg.vfReset then 0#8 else s.getV 0xF#4)

/-- Drawing the same sprite twice at the same place restores every pixel, and the second draw reports a collision when the
first turned a pixel on.
Also rests on D1, D5, D10, D20 and D27 (log entries 11, 18 and 22). -/
def Obligations.DrawingTwiceRestoresFramebuffer : Prop :=
  ∀ (s t u : State) (x y n : Nibble), x ≠ 0xF#4 → y ≠ 0xF#4 → faultCause (.drw x y n) s = none →
    exec (.drw x y n) s = .next t → exec (.drw x y n) t = .next u →
    u.fb = s.fb ∧ ((∃ (c : Fin 64) (r : Fin 32), s.pixel c r = false ∧ t.pixel c r = true) → u.getV 0xF#4 = 1#8)

/-! ## Keypad and timers -/

/-- EX9E and EXA1: with VX a key index, exactly one of them adds 2 to PC, by the latched key state; above 0x0F both fault
(D3, log entry 13).
That nothing else changes is D27's (log entry 22). -/
def Obligations.KeySkipsReadLatchedKey : Prop :=
  ∀ (s : State) (x : Nibble),
    (∀ k : Fin 16, (s.getV x).toNat = k.val → s.keys[k] = true →
      exec (.skp x) s = .next { s with pc := s.pc + 2#16 } ∧ exec (.sknp x) s = .next s) ∧
    (∀ k : Fin 16, (s.getV x).toNat = k.val → s.keys[k] = false →
      exec (.skp x) s = .next s ∧ exec (.sknp x) s = .next { s with pc := s.pc + 2#16 }) ∧
    (0x0F < (s.getV x).toNat →
      (Completes (.skp x) s fun t => t = faultedBy s .keyRange (packXNN 0xE#4 x 0x9E#8) (.ofNat 16 (s.getV x).toNat)) ∧
      (Completes (.sknp x) s fun t => t = faultedBy s .keyRange (packXNN 0xE#4 x 0xA1#8) (.ofNat 16 (s.getV x).toNat)))

/-- FX0A: with a key down VX becomes the lowest-indexed one and the program goes on; with none down PC goes back by 2 and
nothing else changes (D11, log entry 19).
That nothing else changes is D27's (log entry 22). -/
def Obligations.KeyWaitTakesLowestPressedKey : Prop :=
  ∀ (s : State) (x : Nibble),
    (∀ k : Fin 16, s.keys[k] = true → (∀ j : Fin 16, j < k → s.keys[j] = false) → Completes (.ldVxK x) s fun t =>
      (t.getV x).toNat = k.val ∧ (∀ r, r ≠ x → t.getV r = s.getV r) ∧ t = { s with v := t.v }) ∧
    ((∀ k : Fin 16, s.keys[k] = false) → exec (.ldVxK x) s = .next { s with pc := s.pc - 2#16 })

/-- FX07 reads DT into VX, FX15 writes DT from VX, FX18 writes ST from VX, and sound is active exactly when ST > 0.
That nothing else changes is D27's (log entry 22). -/
def Obligations.TimerInstructionsMoveVx : Prop :=
  ∀ (s : State) (x : Nibble),
    (Completes (.ldVxDt x) s fun t => t.getV x = s.dt ∧ t = { s with v := t.v }) ∧
    (Completes (.ldDtVx x) s fun t => t = { s with dt := s.getV x }) ∧
    (Completes (.ldStVx x) s fun t => t = { s with st := s.getV x } ∧
      (t.soundActive = true ↔ 0 < (s.getV x).toNat))

/-- A frame that finds FX0A at PC and no key pressed ends with PC at it and every register as before; only the timers tick
(R194; D11, log entry 19).
That nothing else changes is D27's (log entry 22).
Also rests on D6, D12, D21 and D24 (log entries 15, 20, 23 and 24). -/
def Obligations.WaitingFrameStaysAtKeyWait : Prop :=
  ∀ (s : State) (keys : Vector Bool 16) (x : Nibble), s.runState = .running → s.pc.toNat ≤ 0x0FFE →
    decodeWord s.fetchWord = .ok (.ldVxK x) → (∀ k : Fin 16, keys[k] = false) →
    frame keys s = .next { s with keys := keys, dt := tickByte s.dt, st := tickByte s.st }

/-! ## Who writes what: the frames of all 34 instructions (R98; D27, log entry 22) -/

/-- A register changes only if the instruction writes it by the table of R23.
Also rests on D1 and D14 (log entries 1 and 11). -/
def Obligations.RegistersChangeOnlyWhereNamed : Prop :=
  ∀ (i : Instr) (s t : State) (r : Nibble), exec i s = .next t → ¬ writesV i r → t.getV r = s.getV r

/-- A byte of memory changes only if FX33 or FX55 stores to it.
Also rests on D1, D5 and D14 (log entries 1 and 11). -/
def Obligations.MemoryChangesOnlyWhereStored : Prop :=
  ∀ (i : Instr) (s t : State) (a : Nat), s.mem.wf = true → exec i s = .next t → ¬ storesTo i s a →
    t.byteAt a = s.byteAt a

/-- I is written by ANNN, FX1E and FX29 only.
Also rests on D1 and D14 (log entries 1 and 11). -/
def Obligations.IndexChangesOnlyByThreeInstructions : Prop :=
  ∀ (i : Instr) (s t : State), exec i s = .next t → t.i ≠ s.i → i.mnemonic ∈ [.ldI, .addIVx, .ldFVx]

/-- PC differs from `A + 2` only after jumps, calls, returns, skips and FX0A.  The stack is changed by 2NNN and 00EE only,
the framebuffer by 00E0 and DXYN only, DT by FX15 only, ST by FX18 only, the
random source by CXNN only; the latched keys, the configuration and the controller's and host's fields by no instruction.
Also rests on D1, D12, D14 and D19 (log entries 1, 4, 11 and 20). -/
def Obligations.OtherStateChangesOnlyWhereNamed : Prop :=
  ∀ (i : Instr) (s t : State), exec i s = .next t →
    (t.pc ≠ s.pc → i.mnemonic ∈
      [.ret, .jp, .call, .jpV0, .seImm, .sneImm, .seReg, .sneReg, .skp, .sknp, .ldVxK]) ∧
    (t.sp ≠ s.sp ∨ t.stack ≠ s.stack → i.mnemonic ∈ [.call, .ret]) ∧
    (t.fb ≠ s.fb → i.mnemonic ∈ [.cls, .drw]) ∧
    (t.dt ≠ s.dt → i.mnemonic = .ldDtVx) ∧ (t.st ≠ s.st → i.mnemonic = .ldStVx) ∧
    (t.rnd ≠ s.rnd ∨ t.draws ≠ s.draws → i.mnemonic = .rnd) ∧
    t.keys = s.keys ∧ t.cfg = s.cfg ∧ t.frameLeft = s.frameLeft ∧ t.host = s.host ∧ t.turns = s.turns

/-- An execute phase faults exactly in the cases of the table of R211, with that code and address, and then changes nothing
but FAULT and the run state; in every other case it writes neither (D1, D2, D3, D14; log entries 1, 11, 12, 13).
Also rests on D5, D10 and D20 (log entries 11 and 18). -/
def Obligations.InstructionFaultsExactlyByTable : Prop :=
  ∀ (i : Instr) (s t : State), exec i s = .next t →
    (∀ (c : Fault) (a : Word), faultCause i s = some (c, a) →
      t = faultedBy s c (encode i) a) ∧
    (faultCause i s = none → t.runState = s.runState ∧ t.fault = s.fault)

/-- No instruction can see the controller's count or the host's coming turns (R37): changing them changes nothing
else. -/
def Obligations.ControllerFieldsAreInvisibleToInstructions : Prop :=
  ∀ (i : Instr) (s : State) (k n : Nat) (h : List HostTurn),
    exec i { s with frameLeft := k, turns := n, host := h } =
      mapNext (fun t => { t with frameLeft := k, turns := n, host := h }) (exec i s)

/-! ## The machine controller -/

/-- Every state steps to a next state: no step is refused and none stops (log entries 1 and 29).
Also rests on D14 (log entry 1). -/
def Obligations.EveryStateHasNextState : Prop :=
  (∀ (i : Instr) (s : State), ∃ t, exec i s = .next t) ∧ ∀ s : State, ∃ t, step s = .next t

/-- The transition table of R234 (D15, log entry 26).
Also rests on D14 (log entry 1). -/
def Obligations.HostCommandsFollowTable : Prop :=
  applyCommand .pause .running = .paused ∧ applyCommand .resume .paused = .running ∧
  applyCommand .quit .running = .quit ∧ applyCommand .quit .paused = .quit ∧
  applyCommand .resume .running = .running ∧ applyCommand .pause .paused = .paused ∧
  (∀ c, applyCommand c .quit = .quit) ∧ (∀ c, applyCommand c .faulted = .faulted) ∧
  (∀ r, applyCommand .none r = r)

/-- The run state changes only by the host's command between frames and by a fault (R234, R35; D14, D15). -/
def Obligations.OnlyHostAndFaultsChangeRunState : Prop :=
  ∀ s t : State, step s = .next t →
    (s.midFrame = true → t.runState = .running ∨ t.runState = .faulted) ∧
    (s.midFrame = false → t.runState = applyCommand s.nextTurn.cmd s.runState ∨
      (applyCommand s.nextTurn.cmd s.runState = .running ∧ t.runState = .faulted)) ∧
    (t.runState = .faulted → s.runState ≠ .faulted → t.fault.code ≠ none)

/-- While the machine is Paused, Quit or Faulted and the host does not resume it, a step takes the host's turn and changes
nothing else but the run state by the table (R221, R235; D14, D15, D26; log entry 29). -/
def Obligations.HeldMachineChangesNothing : Prop :=
  ∀ s : State, applyCommand s.nextTurn.cmd s.runState ≠ .running → s.runState ≠ .running →
    step s = .next { s with runState := applyCommand s.nextTurn.cmd s.runState, frameLeft := 0,
                            host := s.host.tail, turns := s.turns + 1 }

/-- The latched keys change only where a frame opens, and are then the host's (R233; D12, log entry 20).
Also rests on D15 and D26 (log entries 20 and 26). -/
def Obligations.KeysAreLatchedWhereFrameOpens : Prop :=
  ∀ s t : State, step s = .next t →
    (s.midFrame = true → t.keys = s.keys) ∧
    (s.midFrame = false → applyCommand s.nextTurn.cmd s.runState = .running → t.keys = s.nextTurn.keys) ∧
    (s.midFrame = false → applyCommand s.nextTurn.cmd s.runState ≠ .running → t.keys = s.keys)

/-- Inside a frame the timers are what the instruction left, ticked exactly when that was the last step of the frame and it
did not fault; a tick takes 1 from a timer above 0 (R230; D24). -/
def Obligations.TimersTickAfterLastStepOfFrame : Prop :=
  (∀ s u t : State, s.midFrame = true → instructionStep s = .next u → step s = .next t →
    (s.frameLeft = 1 ∧ u.runState ≠ .faulted → t.dt = tickByte u.dt ∧ t.st = tickByte u.st) ∧
    (¬ (s.frameLeft = 1 ∧ u.runState ≠ .faulted) → t.dt = u.dt ∧ t.st = u.st)) ∧
  (∀ b : Byte, (tickByte b).toNat = b.toNat - 1)

/-- From a frame boundary the machine's steps are the spec's `Frame(hostKeys)` (R232): after one to STEPS_PER_FRAME steps (one
where the frame has none) the machine is in exactly the state `Frame` gives on the host's turn.
Also rests on D12 and D24 (log entries 20 and 24). -/
def Obligations.StepsOfFrameAreFrame : Prop :=
  ∀ s : State, s.frameLeft = 0 → ∃ k, 1 ≤ k ∧ k ≤ max 1 (s.cfg.ips / 60) ∧
    Host.Core.run Sys2Proof.core k s = frame s.nextTurn.keys s.takeTurn

/-! ## Reset, and the invariant -/

/-- The values after reset: PC 0x200 and every pixel off as the source says; the rest is D13, D14, D15 and D22's choice (log
entries 7 and 8). -/
def Obligations.ResetValues : Prop :=
  State.reset.pc.toNat = 0x200 ∧ (∀ c r, State.reset.pixel c r = false) ∧ (∀ x, State.reset.getV x = 0#8) ∧
  State.reset.i = 0#16 ∧ State.reset.sp.val = 0 ∧ (∀ k : Fin 12, State.reset.stack[k] = 0#16) ∧
  State.reset.dt = 0#8 ∧ State.reset.st = 0#8 ∧
  (∀ k : Fin 16, State.reset.keys[k] = false) ∧ State.reset.runState = .running ∧
  State.reset.fault = ⟨none, 0#16, 0#16, 0#16⟩ ∧ State.reset.cfg = ⟨500, true, true⟩ ∧
  (∀ k, k < 80 → State.reset.byteAt k = standardFont.getD k 0#8) ∧ (∀ a, 80 ≤ a → State.reset.byteAt a = 0#8)

/-- A ROM of more than 4096 - 0x200 bytes fails to load and makes no machine; any other is loaded (R251, R216). -/
def Obligations.OversizedRomIsLoadError : Prop :=
  ∀ (cfg : Config) (font : Vector Byte 80) (rom : List Byte),
    (4096 - 0x200 < rom.length → boot cfg font rom = .error .romTooLarge) ∧
    (rom.length ≤ 4096 - 0x200 → ∃ s, boot cfg font rom = .ok s)

/-- Reset leaves FONT at 0x000-0x04F, the ROM from 0x200 and 0x00 elsewhere, for any FONT and any ROM that fits; every other
field is that of `State.reset` (R250, R252; the zeros are D13's, log entry 8).
Also rests on D14 and D15 (log entries 1 and 26). -/
def Obligations.BootInstallsFontAndRom : Prop :=
  ∀ (cfg : Config) (font : Vector Byte 80) (rom : List Byte) (s : State), boot cfg font rom = .ok s →
    (∀ a : Fin 80, s.byteAt a.val = font[a]) ∧
    (∀ a, 80 ≤ a → a < 0x200 → s.byteAt a = 0#8) ∧
    (∀ a, 0x200 ≤ a → s.byteAt a = rom.getD (a - 0x200) 0#8) ∧
    s = { State.reset with cfg := cfg, mem := s.mem }

/-- The reset state meets the invariant.
Also rests on D13, D14 and D15 (log entries 1, 8 and 26). -/
def Obligations.ResetMeetsInvariant : Prop := State.reset.Inv

/-- Every machine that reset makes, from any configuration, FONT and ROM, meets the invariant.
Also rests on D13, D14 and D15 (log entries 1, 8 and 26). -/
def Obligations.BootedMachineMeetsInvariant : Prop :=
  ∀ (cfg : Config) (font : Vector Byte 80) (rom : List Byte) (s : State),
    boot cfg font rom = .ok s → s.Inv

/-- Every step keeps the invariant: memory stays canonical, Faulted goes with a written FAULT record, only a Running machine is
inside a frame, PC stays at or below 0x10FE, and every valid stack entry is a return address in 0x0002-0x1000.
Also rests on D5, D15 and D21 (log entries 11, 23 and 26). -/
def Obligations.EveryStepKeepsInvariant : Prop :=
  ∀ s t : State, s.Inv → step s = .next t → t.Inv
end

