-- ==== Sys2Proof/Laws/Decode.lean ====
section
/-! SUPPORT. Words and their fields as numbers: what each field reads, and what each packed word holds. -/

namespace Sys2Proof

/-! ## Fields as numbers -/

theorem toNat_fieldF (w : Word) : (fieldF w).toNat = w.toNat / 4096 % 16 := by
  simp [fieldF, Nat.shiftRight_eq_div_pow]
theorem toNat_fieldX (w : Word) : (fieldX w).toNat = w.toNat / 256 % 16 := by
  simp [fieldX, Nat.shiftRight_eq_div_pow]
theorem toNat_fieldY (w : Word) : (fieldY w).toNat = w.toNat / 16 % 16 := by
  simp [fieldY, Nat.shiftRight_eq_div_pow]
theorem toNat_fieldN (w : Word) : (fieldN w).toNat = w.toNat % 16 := by
  simp [fieldN]
theorem toNat_fieldNN (w : Word) : (fieldNN w).toNat = w.toNat % 256 := by
  simp [fieldNN]
theorem toNat_fieldNNN (w : Word) : (fieldNNN w).toNat = w.toNat % 4096 := by
  simp [fieldNNN]

/-! ## Packed words as numbers -/

theorem toNat_append_eq {a b : Nat} (x : BitVec a) (y : BitVec b) :
    (x ++ y).toNat = x.toNat * 2 ^ b + y.toNat := by
  rw [BitVec.toNat_append, ← Nat.shiftLeft_add_eq_or_of_lt y.isLt, Nat.shiftLeft_eq]

theorem toNat_wordOfBytes (hi lo : Byte) : (wordOfBytes hi lo).toNat = hi.toNat * 256 + lo.toNat :=
  toNat_append_eq hi lo

theorem toNat_packNNN (f : Nibble) (nnn : Addr12) : (packNNN f nnn).toNat = f.toNat * 4096 + nnn.toNat :=
  toNat_append_eq f nnn

theorem toNat_packXNN (f x : Nibble) (nn : Byte) :
    (packXNN f x nn).toNat = f.toNat * 4096 + x.toNat * 256 + nn.toNat := by
  have h1 : (packXNN f x nn).toNat = (f ++ x).toNat * 256 + nn.toNat := toNat_append_eq (f ++ x) nn
  rw [h1, toNat_append_eq f x]
  ring

theorem toNat_packXYN (f x y n : Nibble) :
    (packXYN f x y n).toNat = f.toNat * 4096 + x.toNat * 256 + y.toNat * 16 + n.toNat := by
  have h1 : (packXYN f x y n).toNat = (f ++ x ++ y).toNat * 16 + n.toNat := toNat_append_eq (f ++ x ++ y) n
  have h2 : (f ++ x ++ y).toNat = (f ++ x).toNat * 16 + y.toNat := toNat_append_eq (f ++ x) y
  rw [h1, h2, toNat_append_eq f x]
  ring

/-! ## The fields of a packed word -/

@[simp] theorem fieldF_packNNN (f : Nibble) (nnn : Addr12) : fieldF (packNNN f nnn) = f := by
  apply BitVec.eq_of_toNat_eq
  rw [toNat_fieldF, toNat_packNNN]
  omega

@[simp] theorem fieldNNN_packNNN (f : Nibble) (nnn : Addr12) : fieldNNN (packNNN f nnn) = nnn := by
  apply BitVec.eq_of_toNat_eq
  rw [toNat_fieldNNN, toNat_packNNN]
  omega

@[simp] theorem fieldF_packXNN (f x : Nibble) (nn : Byte) : fieldF (packXNN f x nn) = f := by
  apply BitVec.eq_of_toNat_eq
  rw [toNat_fieldF, toNat_packXNN]
  omega

@[simp] theorem fieldX_packXNN (f x : Nibble) (nn : Byte) : fieldX (packXNN f x nn) = x := by
  apply BitVec.eq_of_toNat_eq
  rw [toNat_fieldX, toNat_packXNN]
  omega

@[simp] theorem fieldNN_packXNN (f x : Nibble) (nn : Byte) : fieldNN (packXNN f x nn) = nn := by
  apply BitVec.eq_of_toNat_eq
  rw [toNat_fieldNN, toNat_packXNN]
  omega

@[simp] theorem fieldF_packXYN (f x y n : Nibble) : fieldF (packXYN f x y n) = f := by
  apply BitVec.eq_of_toNat_eq
  rw [toNat_fieldF, toNat_packXYN]
  omega

@[simp] theorem fieldX_packXYN (f x y n : Nibble) : fieldX (packXYN f x y n) = x := by
  apply BitVec.eq_of_toNat_eq
  rw [toNat_fieldX, toNat_packXYN]
  omega

@[simp] theorem fieldY_packXYN (f x y n : Nibble) : fieldY (packXYN f x y n) = y := by
  apply BitVec.eq_of_toNat_eq
  rw [toNat_fieldY, toNat_packXYN]
  omega

@[simp] theorem fieldN_packXYN (f x y n : Nibble) : fieldN (packXYN f x y n) = n := by
  apply BitVec.eq_of_toNat_eq
  rw [toNat_fieldN, toNat_packXYN]
  omega

/-! ## The masks of the opcode table (R72) as numbers -/

theorem and_F000 (w : Word) : w &&& 0xF000#16 = (w >>> 12) <<< 12 := by
  ext k hk
  interval_cases k <;> simp

/-- A mask of the family nibble and the low `b` bits, as a number. -/
theorem toNat_and_mask (w : Word) (b : Nat) (hb : b ≤ 12) :
    (w &&& (0xF000#16 ||| .ofNat 16 (2 ^ b - 1))).toNat = w.toNat / 4096 * 4096 + w.toNat % 2 ^ b := by
  have hpow : 2 ^ b ≤ 2 ^ 12 := Nat.pow_le_pow_right (by omega) hb
  have hlt : w.toNat % 2 ^ b < 2 ^ 12 := Nat.lt_of_lt_of_le (Nat.mod_lt _ (Nat.two_pow_pos b)) hpow
  have hw := w.isLt
  have h1 : (w &&& 0xF000#16).toNat = (w.toNat / 4096) <<< 12 := by
    rw [and_F000]
    simp only [BitVec.toNat_shiftLeft, BitVec.toNat_ushiftRight, Nat.shiftRight_eq_div_pow]
    rw [Nat.mod_eq_of_lt]
    rw [Nat.shiftLeft_eq]; omega
  have h2 : (w &&& BitVec.ofNat 16 (2 ^ b - 1)).toNat = w.toNat % 2 ^ b := by
    rw [BitVec.toNat_and, BitVec.toNat_ofNat, Nat.mod_eq_of_lt (by omega), Nat.and_two_pow_sub_one_eq_mod]
  rw [BitVec.and_or_distrib_left, BitVec.toNat_or, h1, h2, ← Nat.shiftLeft_add_eq_or_of_lt hlt, Nat.shiftLeft_eq]

theorem toNat_and_F000 (w : Word) : (w &&& 0xF000#16).toNat = w.toNat / 4096 * 4096 := by
  simpa [Nat.mod_one] using toNat_and_mask w 0 (by omega)
theorem toNat_and_F00F (w : Word) : (w &&& 0xF00F#16).toNat = w.toNat / 4096 * 4096 + w.toNat % 16 :=
  toNat_and_mask w 4 (by omega)
theorem toNat_and_F0FF (w : Word) : (w &&& 0xF0FF#16).toNat = w.toNat / 4096 * 4096 + w.toNat % 256 :=
  toNat_and_mask w 8 (by omega)

/-- The bytes of a word, read back as a word (R53, R54). -/
theorem wordOfBytes_bytesOfWord (w : Word) :
    wordOfBytes (w.extractLsb' 8 8) (w.extractLsb' 0 8) = w := by
  apply BitVec.eq_of_toNat_eq
  rw [toNat_wordOfBytes]
  simp [Nat.shiftRight_eq_div_pow]
  omega

end Sys2Proof
end

