-- ==== Sys2Proof/Laws/Memory.lean ====
section
/-! SUPPORT. Memory: a read after a write, and that every operation keeps the canonical form. -/

namespace Sys2Proof.Machine.Memory

@[simp] theorem read_nil (a : Nat) : read [] a = initial a := rfl

theorem read_cons_entry (k : Nat) (c : Byte) (m : Memory) (a : Nat) :
    read ((k, c) :: m) a = if k = a then c else read m a := by
  simp only [read, lookup]
  split <;> rfl

/-- Every listed address is at or above the bound of the form. -/
theorem lookup_below {lo : Nat} {m : Memory} (h : wfFrom lo m = true) {a : Nat} (ha : a < lo) : lookup m a = none := by
  induction m generalizing lo with
  | nil => rfl
  | cons e m ih =>
    obtain ⟨k, c⟩ := e
    simp only [wfFrom, Bool.and_eq_true, decide_eq_true_eq] at h
    unfold lookup
    rw [if_neg (by omega)]
    exact ih h.2 (by omega)

theorem read_below {lo : Nat} {m : Memory} (h : wfFrom lo m = true) {a : Nat} (ha : a < lo) : read m a = initial a := by
  simp [read, lookup_below h ha]

theorem wfFrom_mono {lo lo' : Nat} {m : Memory} (h : wfFrom lo m = true) (hl : lo' ≤ lo) : wfFrom lo' m = true := by
  cases m with
  | nil => rfl
  | cons e m =>
    obtain ⟨k, c⟩ := e
    simp only [wfFrom, Bool.and_eq_true, decide_eq_true_eq] at h ⊢
    exact ⟨⟨⟨by omega, h.1.1.2⟩, h.1.2⟩, h.2⟩

theorem wfFrom_cons {lo a : Nat} {b : Byte} {m : Memory} (h : wfFrom (a + 1) m = true) (hl : lo ≤ a)
    (ha : a ≤ 0x0FFF) : wfFrom lo (cons a b m) = true := by
  unfold cons
  split
  · exact wfFrom_mono h (by omega)
  · simp only [wfFrom, Bool.and_eq_true, decide_eq_true_eq]
    exact ⟨⟨⟨hl, ha⟩, ‹_›⟩, h⟩

theorem wfFrom_write {lo a : Nat} {b : Byte} {m : Memory} (h : wfFrom lo m = true) (hl : lo ≤ a)
    (ha : a ≤ 0x0FFF) : wfFrom lo (write m a b) = true := by
  induction m generalizing lo with
  | nil => exact wfFrom_cons rfl hl ha
  | cons e m ih =>
    obtain ⟨k, c⟩ := e
    have h' := h
    simp only [wfFrom, Bool.and_eq_true, decide_eq_true_eq] at h'
    unfold write
    split
    · refine wfFrom_cons ?_ hl ha
      simp only [wfFrom, Bool.and_eq_true, decide_eq_true_eq]
      exact ⟨⟨⟨by omega, h'.1.1.2⟩, h'.1.2⟩, h'.2⟩
    · split
      · subst_vars; exact wfFrom_cons h'.2 hl ha
      · simp only [wfFrom, Bool.and_eq_true, decide_eq_true_eq]
        exact ⟨h'.1, ih h'.2 (by omega)⟩

/-- A write inside 0x000-0xFFF keeps the canonical form. -/
theorem wf_write {m : Memory} {a : Nat} {b : Byte} (h : wf m = true) (ha : a ≤ 0x0FFF) :
    wf (write m a b) = true := wfFrom_write h (Nat.zero_le _) ha

/-- Stores that stay inside 0x000-0xFFF keep the canonical form. -/
theorem wf_writeList {m : Memory} {a : Nat} {bs : List Byte} (h : wf m = true)
    (ha : a + bs.length ≤ 0x1000) : wf (writeList m a bs) = true := by
  induction bs generalizing m a with
  | nil => exact h
  | cons b bs ih =>
    simp only [List.length_cons] at ha
    exact ih (wf_write h (by omega)) (by omega)

@[simp] theorem wf_nil : wf [] = true := rfl

theorem read_cons {a : Nat} {b : Byte} {m : Memory} (h : wfFrom (a + 1) m = true) (c : Nat) :
    read (cons a b m) c = if c = a then b else read m c := by
  unfold cons
  split
  · split
    · subst_vars; exact read_below h (by omega)
    · rfl
  · simp [read_cons_entry, eq_comm]

theorem read_write_from {lo : Nat} {m : Memory} (h : wfFrom lo m = true) (a : Nat) (b : Byte) (c : Nat) :
    read (write m a b) c = if c = a then b else read m c := by
  induction m generalizing lo with
  | nil => exact read_cons rfl c
  | cons e m ih =>
    obtain ⟨k, d⟩ := e
    have h' := h
    simp only [wfFrom, Bool.and_eq_true, decide_eq_true_eq] at h'
    unfold write
    split
    · refine read_cons ?_ c
      simp only [wfFrom, Bool.and_eq_true, decide_eq_true_eq]
      exact ⟨⟨⟨by omega, h'.1.1.2⟩, h'.1.2⟩, h'.2⟩
    · split
      · rename_i heq
        subst heq
        rw [read_cons h'.2, read_cons_entry]
        by_cases hc : c = a
        · simp [hc]
        · simp [hc, Ne.symm hc]
      · rw [read_cons_entry, read_cons_entry, ih h'.2]
        split <;> split <;> first | rfl | omega

/-- A read after a write: the written byte at its address, the byte before everywhere else. -/
theorem read_write {m : Memory} (h : wf m = true) (a : Nat) (b : Byte) (c : Nat) :
    read (write m a b) c = if c = a then b else read m c := read_write_from h a b c

/-- A read after a list of stores: element `c - a` at `c` inside the stored bytes, the byte before everywhere else. -/
theorem read_writeList {m : Memory} (h : wf m = true) (a : Nat) (bs : List Byte)
    (ha : a + bs.length ≤ 0x1000) (c : Nat) :
    read (writeList m a bs) c = if a ≤ c then bs.getD (c - a) (read m c) else read m c := by
  induction bs generalizing m a with
  | nil => simp [writeList]
  | cons b bs ih =>
    simp only [List.length_cons] at ha
    unfold writeList
    rw [ih (wf_write h (by omega)) (a + 1) (by omega), read_write h]
    by_cases h1 : c = a
    · subst h1; simp
    · by_cases h2 : a ≤ c
      · obtain ⟨k, rfl⟩ : ∃ k, c = a + 1 + k := ⟨c - (a + 1), by omega⟩
        rw [if_pos (by omega), if_neg h1, if_pos h2, show a + 1 + k - (a + 1) = k by omega,
          show a + 1 + k - a = k + 1 by omega, List.getD_cons_succ]
      · rw [if_neg (by omega), if_neg h1, if_neg h2]

/-- Equal canonical memories are equal data: the form of a memory is fixed by what it reads. -/
theorem wfFrom_ext {lo : Nat} {m m' : Memory} (h : wfFrom lo m = true) (h' : wfFrom lo m' = true)
    (hr : ∀ a, read m a = read m' a) : m = m' := by
  induction m generalizing lo m' with
  | nil =>
    cases m' with
    | nil => rfl
    | cons e m' =>
      obtain ⟨k, c⟩ := e
      simp only [wfFrom, Bool.and_eq_true, decide_eq_true_eq] at h'
      have := hr k
      simp [read_cons_entry] at this
      exact absurd this.symm h'.1.2
  | cons e m ih =>
    obtain ⟨k, c⟩ := e
    have hk := h
    simp only [wfFrom, Bool.and_eq_true, decide_eq_true_eq] at hk
    cases m' with
    | nil =>
      have := hr k
      simp [read_cons_entry] at this
      exact absurd this hk.1.2
    | cons e' m' =>
      obtain ⟨k', c'⟩ := e'
      have hk' := h'
      simp only [wfFrom, Bool.and_eq_true, decide_eq_true_eq] at hk'
      have hkk : k = k' := by
        rcases Nat.lt_trichotomy k k' with hlt | heq | hgt
        · have := hr k
          rw [read_cons_entry, if_pos rfl, read_cons_entry, if_neg (by omega), read_below hk'.2 (by omega)] at this
          exact absurd this hk.1.2
        · exact heq
        · have := hr k'
          rw [read_cons_entry, if_neg (by omega), read_cons_entry, if_pos rfl, read_below hk.2 (by omega)] at this
          exact absurd this.symm hk'.1.2
      subst hkk
      have hc : c = c' := by simpa [read_cons_entry] using hr k
      subst hc
      refine congrArg _ (ih hk.2 hk'.2 fun a => ?_)
      by_cases ha : k = a
      · subst ha; rw [read_below hk.2 (by omega), read_below hk'.2 (by omega)]
      · simpa [read_cons_entry, ha] using hr a

/-- Canonical memories that read the same are the same list. -/
theorem wf_ext {m m' : Memory} (h : wf m = true) (h' : wf m' = true) (hr : ∀ a, read m a = read m' a) : m = m' :=
  wfFrom_ext h h' hr

end Sys2Proof.Machine.Memory
end

