-- ==== Sys2Proof/Laws/State.lean ====
section
/-! SUPPORT. One lemma per field per update of the state: what each named update writes, and that it leaves every other
field alone. -/

namespace Sys2Proof.Machine

namespace State

/-! ### setV -/

@[simp] theorem setV_mem (s : State) (x : Nibble) (b : Byte) : (s.setV x b).mem = s.mem := rfl
@[simp] theorem setV_v (s : State) (x : Nibble) (b : Byte) : (s.setV x b).v = s.v.set x.toNat b := rfl
@[simp] theorem setV_i (s : State) (x : Nibble) (b : Byte) : (s.setV x b).i = s.i := rfl
@[simp] theorem setV_pc (s : State) (x : Nibble) (b : Byte) : (s.setV x b).pc = s.pc := rfl
@[simp] theorem setV_stack (s : State) (x : Nibble) (b : Byte) : (s.setV x b).stack = s.stack := rfl
@[simp] theorem setV_sp (s : State) (x : Nibble) (b : Byte) : (s.setV x b).sp = s.sp := rfl
@[simp] theorem setV_dt (s : State) (x : Nibble) (b : Byte) : (s.setV x b).dt = s.dt := rfl
@[simp] theorem setV_st (s : State) (x : Nibble) (b : Byte) : (s.setV x b).st = s.st := rfl
@[simp] theorem setV_keys (s : State) (x : Nibble) (b : Byte) : (s.setV x b).keys = s.keys := rfl
@[simp] theorem setV_fb (s : State) (x : Nibble) (b : Byte) : (s.setV x b).fb = s.fb := rfl
@[simp] theorem setV_runState (s : State) (x : Nibble) (b : Byte) : (s.setV x b).runState = s.runState := rfl
@[simp] theorem setV_fault (s : State) (x : Nibble) (b : Byte) : (s.setV x b).fault = s.fault := rfl
@[simp] theorem setV_cfg (s : State) (x : Nibble) (b : Byte) : (s.setV x b).cfg = s.cfg := rfl
@[simp] theorem setV_frameLeft (s : State) (x : Nibble) (b : Byte) : (s.setV x b).frameLeft = s.frameLeft := rfl
@[simp] theorem setV_host (s : State) (x : Nibble) (b : Byte) : (s.setV x b).host = s.host := rfl
@[simp] theorem setV_turns (s : State) (x : Nibble) (b : Byte) : (s.setV x b).turns = s.turns := rfl
@[simp] theorem setV_rnd (s : State) (x : Nibble) (b : Byte) : (s.setV x b).rnd = s.rnd := rfl
@[simp] theorem setV_draws (s : State) (x : Nibble) (b : Byte) : (s.setV x b).draws = s.draws := rfl

/-! ### setVs -/

@[simp] theorem setVs_mem (s : State) (bs : List Byte) : (s.setVs bs).mem = s.mem := by simp only [setVs]
@[simp] theorem setVs_i (s : State) (bs : List Byte) : (s.setVs bs).i = s.i := by simp only [setVs]
@[simp] theorem setVs_pc (s : State) (bs : List Byte) : (s.setVs bs).pc = s.pc := by simp only [setVs]
@[simp] theorem setVs_stack (s : State) (bs : List Byte) : (s.setVs bs).stack = s.stack := by simp only [setVs]
@[simp] theorem setVs_sp (s : State) (bs : List Byte) : (s.setVs bs).sp = s.sp := by simp only [setVs]
@[simp] theorem setVs_dt (s : State) (bs : List Byte) : (s.setVs bs).dt = s.dt := by simp only [setVs]
@[simp] theorem setVs_st (s : State) (bs : List Byte) : (s.setVs bs).st = s.st := by simp only [setVs]
@[simp] theorem setVs_keys (s : State) (bs : List Byte) : (s.setVs bs).keys = s.keys := by simp only [setVs]
@[simp] theorem setVs_fb (s : State) (bs : List Byte) : (s.setVs bs).fb = s.fb := by simp only [setVs]
@[simp] theorem setVs_runState (s : State) (bs : List Byte) : (s.setVs bs).runState = s.runState := by simp only [setVs]
@[simp] theorem setVs_fault (s : State) (bs : List Byte) : (s.setVs bs).fault = s.fault := by simp only [setVs]
@[simp] theorem setVs_cfg (s : State) (bs : List Byte) : (s.setVs bs).cfg = s.cfg := by simp only [setVs]
@[simp] theorem setVs_frameLeft (s : State) (bs : List Byte) : (s.setVs bs).frameLeft = s.frameLeft := by simp only [setVs]
@[simp] theorem setVs_host (s : State) (bs : List Byte) : (s.setVs bs).host = s.host := by simp only [setVs]
@[simp] theorem setVs_turns (s : State) (bs : List Byte) : (s.setVs bs).turns = s.turns := by simp only [setVs]
@[simp] theorem setVs_rnd (s : State) (bs : List Byte) : (s.setVs bs).rnd = s.rnd := by simp only [setVs]
@[simp] theorem setVs_draws (s : State) (bs : List Byte) : (s.setVs bs).draws = s.draws := by simp only [setVs]

/-! ### setI -/

@[simp] theorem setI_mem (s : State) (w : Word) : (s.setI w).mem = s.mem := rfl
@[simp] theorem setI_v (s : State) (w : Word) : (s.setI w).v = s.v := rfl
@[simp] theorem setI_i (s : State) (w : Word) : (s.setI w).i = w := rfl
@[simp] theorem setI_pc (s : State) (w : Word) : (s.setI w).pc = s.pc := rfl
@[simp] theorem setI_stack (s : State) (w : Word) : (s.setI w).stack = s.stack := rfl
@[simp] theorem setI_sp (s : State) (w : Word) : (s.setI w).sp = s.sp := rfl
@[simp] theorem setI_dt (s : State) (w : Word) : (s.setI w).dt = s.dt := rfl
@[simp] theorem setI_st (s : State) (w : Word) : (s.setI w).st = s.st := rfl
@[simp] theorem setI_keys (s : State) (w : Word) : (s.setI w).keys = s.keys := rfl
@[simp] theorem setI_fb (s : State) (w : Word) : (s.setI w).fb = s.fb := rfl
@[simp] theorem setI_runState (s : State) (w : Word) : (s.setI w).runState = s.runState := rfl
@[simp] theorem setI_fault (s : State) (w : Word) : (s.setI w).fault = s.fault := rfl
@[simp] theorem setI_cfg (s : State) (w : Word) : (s.setI w).cfg = s.cfg := rfl
@[simp] theorem setI_frameLeft (s : State) (w : Word) : (s.setI w).frameLeft = s.frameLeft := rfl
@[simp] theorem setI_host (s : State) (w : Word) : (s.setI w).host = s.host := rfl
@[simp] theorem setI_turns (s : State) (w : Word) : (s.setI w).turns = s.turns := rfl
@[simp] theorem setI_rnd (s : State) (w : Word) : (s.setI w).rnd = s.rnd := rfl
@[simp] theorem setI_draws (s : State) (w : Word) : (s.setI w).draws = s.draws := rfl

/-! ### setPc -/

@[simp] theorem setPc_mem (s : State) (w : Word) : (s.setPc w).mem = s.mem := rfl
@[simp] theorem setPc_v (s : State) (w : Word) : (s.setPc w).v = s.v := rfl
@[simp] theorem setPc_i (s : State) (w : Word) : (s.setPc w).i = s.i := rfl
@[simp] theorem setPc_pc (s : State) (w : Word) : (s.setPc w).pc = w := rfl
@[simp] theorem setPc_stack (s : State) (w : Word) : (s.setPc w).stack = s.stack := rfl
@[simp] theorem setPc_sp (s : State) (w : Word) : (s.setPc w).sp = s.sp := rfl
@[simp] theorem setPc_dt (s : State) (w : Word) : (s.setPc w).dt = s.dt := rfl
@[simp] theorem setPc_st (s : State) (w : Word) : (s.setPc w).st = s.st := rfl
@[simp] theorem setPc_keys (s : State) (w : Word) : (s.setPc w).keys = s.keys := rfl
@[simp] theorem setPc_fb (s : State) (w : Word) : (s.setPc w).fb = s.fb := rfl
@[simp] theorem setPc_runState (s : State) (w : Word) : (s.setPc w).runState = s.runState := rfl
@[simp] theorem setPc_fault (s : State) (w : Word) : (s.setPc w).fault = s.fault := rfl
@[simp] theorem setPc_cfg (s : State) (w : Word) : (s.setPc w).cfg = s.cfg := rfl
@[simp] theorem setPc_frameLeft (s : State) (w : Word) : (s.setPc w).frameLeft = s.frameLeft := rfl
@[simp] theorem setPc_host (s : State) (w : Word) : (s.setPc w).host = s.host := rfl
@[simp] theorem setPc_turns (s : State) (w : Word) : (s.setPc w).turns = s.turns := rfl
@[simp] theorem setPc_rnd (s : State) (w : Word) : (s.setPc w).rnd = s.rnd := rfl
@[simp] theorem setPc_draws (s : State) (w : Word) : (s.setPc w).draws = s.draws := rfl

/-! ### setDt -/

@[simp] theorem setDt_mem (s : State) (b : Byte) : (s.setDt b).mem = s.mem := rfl
@[simp] theorem setDt_v (s : State) (b : Byte) : (s.setDt b).v = s.v := rfl
@[simp] theorem setDt_i (s : State) (b : Byte) : (s.setDt b).i = s.i := rfl
@[simp] theorem setDt_pc (s : State) (b : Byte) : (s.setDt b).pc = s.pc := rfl
@[simp] theorem setDt_stack (s : State) (b : Byte) : (s.setDt b).stack = s.stack := rfl
@[simp] theorem setDt_sp (s : State) (b : Byte) : (s.setDt b).sp = s.sp := rfl
@[simp] theorem setDt_dt (s : State) (b : Byte) : (s.setDt b).dt = b := rfl
@[simp] theorem setDt_st (s : State) (b : Byte) : (s.setDt b).st = s.st := rfl
@[simp] theorem setDt_keys (s : State) (b : Byte) : (s.setDt b).keys = s.keys := rfl
@[simp] theorem setDt_fb (s : State) (b : Byte) : (s.setDt b).fb = s.fb := rfl
@[simp] theorem setDt_runState (s : State) (b : Byte) : (s.setDt b).runState = s.runState := rfl
@[simp] theorem setDt_fault (s : State) (b : Byte) : (s.setDt b).fault = s.fault := rfl
@[simp] theorem setDt_cfg (s : State) (b : Byte) : (s.setDt b).cfg = s.cfg := rfl
@[simp] theorem setDt_frameLeft (s : State) (b : Byte) : (s.setDt b).frameLeft = s.frameLeft := rfl
@[simp] theorem setDt_host (s : State) (b : Byte) : (s.setDt b).host = s.host := rfl
@[simp] theorem setDt_turns (s : State) (b : Byte) : (s.setDt b).turns = s.turns := rfl
@[simp] theorem setDt_rnd (s : State) (b : Byte) : (s.setDt b).rnd = s.rnd := rfl
@[simp] theorem setDt_draws (s : State) (b : Byte) : (s.setDt b).draws = s.draws := rfl

/-! ### setSt -/

@[simp] theorem setSt_mem (s : State) (b : Byte) : (s.setSt b).mem = s.mem := rfl
@[simp] theorem setSt_v (s : State) (b : Byte) : (s.setSt b).v = s.v := rfl
@[simp] theorem setSt_i (s : State) (b : Byte) : (s.setSt b).i = s.i := rfl
@[simp] theorem setSt_pc (s : State) (b : Byte) : (s.setSt b).pc = s.pc := rfl
@[simp] theorem setSt_stack (s : State) (b : Byte) : (s.setSt b).stack = s.stack := rfl
@[simp] theorem setSt_sp (s : State) (b : Byte) : (s.setSt b).sp = s.sp := rfl
@[simp] theorem setSt_dt (s : State) (b : Byte) : (s.setSt b).dt = s.dt := rfl
@[simp] theorem setSt_st (s : State) (b : Byte) : (s.setSt b).st = b := rfl
@[simp] theorem setSt_keys (s : State) (b : Byte) : (s.setSt b).keys = s.keys := rfl
@[simp] theorem setSt_fb (s : State) (b : Byte) : (s.setSt b).fb = s.fb := rfl
@[simp] theorem setSt_runState (s : State) (b : Byte) : (s.setSt b).runState = s.runState := rfl
@[simp] theorem setSt_fault (s : State) (b : Byte) : (s.setSt b).fault = s.fault := rfl
@[simp] theorem setSt_cfg (s : State) (b : Byte) : (s.setSt b).cfg = s.cfg := rfl
@[simp] theorem setSt_frameLeft (s : State) (b : Byte) : (s.setSt b).frameLeft = s.frameLeft := rfl
@[simp] theorem setSt_host (s : State) (b : Byte) : (s.setSt b).host = s.host := rfl
@[simp] theorem setSt_turns (s : State) (b : Byte) : (s.setSt b).turns = s.turns := rfl
@[simp] theorem setSt_rnd (s : State) (b : Byte) : (s.setSt b).rnd = s.rnd := rfl
@[simp] theorem setSt_draws (s : State) (b : Byte) : (s.setSt b).draws = s.draws := rfl

/-! ### storeBytes -/

@[simp] theorem storeBytes_mem (s : State) (a : Nat) (bs : List Byte) : (s.storeBytes a bs).mem = s.mem.writeList a bs := rfl
@[simp] theorem storeBytes_v (s : State) (a : Nat) (bs : List Byte) : (s.storeBytes a bs).v = s.v := rfl
@[simp] theorem storeBytes_i (s : State) (a : Nat) (bs : List Byte) : (s.storeBytes a bs).i = s.i := rfl
@[simp] theorem storeBytes_pc (s : State) (a : Nat) (bs : List Byte) : (s.storeBytes a bs).pc = s.pc := rfl
@[simp] theorem storeBytes_stack (s : State) (a : Nat) (bs : List Byte) : (s.storeBytes a bs).stack = s.stack := rfl
@[simp] theorem storeBytes_sp (s : State) (a : Nat) (bs : List Byte) : (s.storeBytes a bs).sp = s.sp := rfl
@[simp] theorem storeBytes_dt (s : State) (a : Nat) (bs : List Byte) : (s.storeBytes a bs).dt = s.dt := rfl
@[simp] theorem storeBytes_st (s : State) (a : Nat) (bs : List Byte) : (s.storeBytes a bs).st = s.st := rfl
@[simp] theorem storeBytes_keys (s : State) (a : Nat) (bs : List Byte) : (s.storeBytes a bs).keys = s.keys := rfl
@[simp] theorem storeBytes_fb (s : State) (a : Nat) (bs : List Byte) : (s.storeBytes a bs).fb = s.fb := rfl
@[simp] theorem storeBytes_runState (s : State) (a : Nat) (bs : List Byte) : (s.storeBytes a bs).runState = s.runState := rfl
@[simp] theorem storeBytes_fault (s : State) (a : Nat) (bs : List Byte) : (s.storeBytes a bs).fault = s.fault := rfl
@[simp] theorem storeBytes_cfg (s : State) (a : Nat) (bs : List Byte) : (s.storeBytes a bs).cfg = s.cfg := rfl
@[simp] theorem storeBytes_frameLeft (s : State) (a : Nat) (bs : List Byte) : (s.storeBytes a bs).frameLeft = s.frameLeft := rfl
@[simp] theorem storeBytes_host (s : State) (a : Nat) (bs : List Byte) : (s.storeBytes a bs).host = s.host := rfl
@[simp] theorem storeBytes_turns (s : State) (a : Nat) (bs : List Byte) : (s.storeBytes a bs).turns = s.turns := rfl
@[simp] theorem storeBytes_rnd (s : State) (a : Nat) (bs : List Byte) : (s.storeBytes a bs).rnd = s.rnd := rfl
@[simp] theorem storeBytes_draws (s : State) (a : Nat) (bs : List Byte) : (s.storeBytes a bs).draws = s.draws := rfl

/-! ### drawn -/

@[simp] theorem drawn_mem (s : State) : (s.drawn).mem = s.mem := rfl
@[simp] theorem drawn_v (s : State) : (s.drawn).v = s.v := rfl
@[simp] theorem drawn_i (s : State) : (s.drawn).i = s.i := rfl
@[simp] theorem drawn_pc (s : State) : (s.drawn).pc = s.pc := rfl
@[simp] theorem drawn_stack (s : State) : (s.drawn).stack = s.stack := rfl
@[simp] theorem drawn_sp (s : State) : (s.drawn).sp = s.sp := rfl
@[simp] theorem drawn_dt (s : State) : (s.drawn).dt = s.dt := rfl
@[simp] theorem drawn_st (s : State) : (s.drawn).st = s.st := rfl
@[simp] theorem drawn_keys (s : State) : (s.drawn).keys = s.keys := rfl
@[simp] theorem drawn_fb (s : State) : (s.drawn).fb = s.fb := rfl
@[simp] theorem drawn_runState (s : State) : (s.drawn).runState = s.runState := rfl
@[simp] theorem drawn_fault (s : State) : (s.drawn).fault = s.fault := rfl
@[simp] theorem drawn_cfg (s : State) : (s.drawn).cfg = s.cfg := rfl
@[simp] theorem drawn_frameLeft (s : State) : (s.drawn).frameLeft = s.frameLeft := rfl
@[simp] theorem drawn_host (s : State) : (s.drawn).host = s.host := rfl
@[simp] theorem drawn_turns (s : State) : (s.drawn).turns = s.turns := rfl
@[simp] theorem drawn_rnd (s : State) : (s.drawn).rnd = s.rnd.tail := rfl
@[simp] theorem drawn_draws (s : State) : (s.drawn).draws = s.draws + 1 := rfl

/-! ### enterFault -/

@[simp] theorem enterFault_mem (s : State) (c : Fault) (p o a : Word) : (s.enterFault c p o a).mem = s.mem := rfl
@[simp] theorem enterFault_v (s : State) (c : Fault) (p o a : Word) : (s.enterFault c p o a).v = s.v := rfl
@[simp] theorem enterFault_i (s : State) (c : Fault) (p o a : Word) : (s.enterFault c p o a).i = s.i := rfl
@[simp] theorem enterFault_pc (s : State) (c : Fault) (p o a : Word) : (s.enterFault c p o a).pc = s.pc := rfl
@[simp] theorem enterFault_stack (s : State) (c : Fault) (p o a : Word) : (s.enterFault c p o a).stack = s.stack := rfl
@[simp] theorem enterFault_sp (s : State) (c : Fault) (p o a : Word) : (s.enterFault c p o a).sp = s.sp := rfl
@[simp] theorem enterFault_dt (s : State) (c : Fault) (p o a : Word) : (s.enterFault c p o a).dt = s.dt := rfl
@[simp] theorem enterFault_st (s : State) (c : Fault) (p o a : Word) : (s.enterFault c p o a).st = s.st := rfl
@[simp] theorem enterFault_keys (s : State) (c : Fault) (p o a : Word) : (s.enterFault c p o a).keys = s.keys := rfl
@[simp] theorem enterFault_fb (s : State) (c : Fault) (p o a : Word) : (s.enterFault c p o a).fb = s.fb := rfl
@[simp] theorem enterFault_runState (s : State) (c : Fault) (p o a : Word) : (s.enterFault c p o a).runState = .faulted := rfl
@[simp] theorem enterFault_fault (s : State) (c : Fault) (p o a : Word) : (s.enterFault c p o a).fault = ⟨some c, p, o, a⟩ := rfl
@[simp] theorem enterFault_cfg (s : State) (c : Fault) (p o a : Word) : (s.enterFault c p o a).cfg = s.cfg := rfl
@[simp] theorem enterFault_frameLeft (s : State) (c : Fault) (p o a : Word) : (s.enterFault c p o a).frameLeft = s.frameLeft := rfl
@[simp] theorem enterFault_host (s : State) (c : Fault) (p o a : Word) : (s.enterFault c p o a).host = s.host := rfl
@[simp] theorem enterFault_turns (s : State) (c : Fault) (p o a : Word) : (s.enterFault c p o a).turns = s.turns := rfl
@[simp] theorem enterFault_rnd (s : State) (c : Fault) (p o a : Word) : (s.enterFault c p o a).rnd = s.rnd := rfl
@[simp] theorem enterFault_draws (s : State) (c : Fault) (p o a : Word) : (s.enterFault c p o a).draws = s.draws := rfl

/-! ### raise and fetchFault: `enterFault` with its record given -/

@[simp] theorem raise_eq (s : State) (c : Fault) (ins : Instr) (a : Word) :
    s.raise c ins a = s.enterFault c (s.pc - 2#16) (encode ins) a := rfl

@[simp] theorem fetchFault_eq (s : State) :
    s.fetchFault =
      s.enterFault .fetchBounds s.pc 0#16 (if 0x0FFF < s.pc.toNat then s.pc else 0x1000#16) := rfl

/-! ### advance -/

@[simp] theorem advance_mem (s : State) : (s.advance).mem = s.mem := rfl
@[simp] theorem advance_v (s : State) : (s.advance).v = s.v := rfl
@[simp] theorem advance_i (s : State) : (s.advance).i = s.i := rfl
@[simp] theorem advance_pc (s : State) : (s.advance).pc = s.pc + 2#16 := rfl
@[simp] theorem advance_stack (s : State) : (s.advance).stack = s.stack := rfl
@[simp] theorem advance_sp (s : State) : (s.advance).sp = s.sp := rfl
@[simp] theorem advance_dt (s : State) : (s.advance).dt = s.dt := rfl
@[simp] theorem advance_st (s : State) : (s.advance).st = s.st := rfl
@[simp] theorem advance_keys (s : State) : (s.advance).keys = s.keys := rfl
@[simp] theorem advance_fb (s : State) : (s.advance).fb = s.fb := rfl
@[simp] theorem advance_runState (s : State) : (s.advance).runState = s.runState := rfl
@[simp] theorem advance_fault (s : State) : (s.advance).fault = s.fault := rfl
@[simp] theorem advance_cfg (s : State) : (s.advance).cfg = s.cfg := rfl
@[simp] theorem advance_frameLeft (s : State) : (s.advance).frameLeft = s.frameLeft := rfl
@[simp] theorem advance_host (s : State) : (s.advance).host = s.host := rfl
@[simp] theorem advance_turns (s : State) : (s.advance).turns = s.turns := rfl
@[simp] theorem advance_rnd (s : State) : (s.advance).rnd = s.rnd := rfl
@[simp] theorem advance_draws (s : State) : (s.advance).draws = s.draws := rfl

/-! ### rewind -/

@[simp] theorem rewind_mem (s : State) : (s.rewind).mem = s.mem := rfl
@[simp] theorem rewind_v (s : State) : (s.rewind).v = s.v := rfl
@[simp] theorem rewind_i (s : State) : (s.rewind).i = s.i := rfl
@[simp] theorem rewind_pc (s : State) : (s.rewind).pc = s.pc - 2#16 := rfl
@[simp] theorem rewind_stack (s : State) : (s.rewind).stack = s.stack := rfl
@[simp] theorem rewind_sp (s : State) : (s.rewind).sp = s.sp := rfl
@[simp] theorem rewind_dt (s : State) : (s.rewind).dt = s.dt := rfl
@[simp] theorem rewind_st (s : State) : (s.rewind).st = s.st := rfl
@[simp] theorem rewind_keys (s : State) : (s.rewind).keys = s.keys := rfl
@[simp] theorem rewind_fb (s : State) : (s.rewind).fb = s.fb := rfl
@[simp] theorem rewind_runState (s : State) : (s.rewind).runState = s.runState := rfl
@[simp] theorem rewind_fault (s : State) : (s.rewind).fault = s.fault := rfl
@[simp] theorem rewind_cfg (s : State) : (s.rewind).cfg = s.cfg := rfl
@[simp] theorem rewind_frameLeft (s : State) : (s.rewind).frameLeft = s.frameLeft := rfl
@[simp] theorem rewind_host (s : State) : (s.rewind).host = s.host := rfl
@[simp] theorem rewind_turns (s : State) : (s.rewind).turns = s.turns := rfl
@[simp] theorem rewind_rnd (s : State) : (s.rewind).rnd = s.rnd := rfl
@[simp] theorem rewind_draws (s : State) : (s.rewind).draws = s.draws := rfl

/-! ### tick -/

@[simp] theorem tick_mem (s : State) : (s.tick).mem = s.mem := rfl
@[simp] theorem tick_v (s : State) : (s.tick).v = s.v := rfl
@[simp] theorem tick_i (s : State) : (s.tick).i = s.i := rfl
@[simp] theorem tick_pc (s : State) : (s.tick).pc = s.pc := rfl
@[simp] theorem tick_stack (s : State) : (s.tick).stack = s.stack := rfl
@[simp] theorem tick_sp (s : State) : (s.tick).sp = s.sp := rfl
@[simp] theorem tick_dt (s : State) : (s.tick).dt = tickByte s.dt := rfl
@[simp] theorem tick_st (s : State) : (s.tick).st = tickByte s.st := rfl
@[simp] theorem tick_keys (s : State) : (s.tick).keys = s.keys := rfl
@[simp] theorem tick_fb (s : State) : (s.tick).fb = s.fb := rfl
@[simp] theorem tick_runState (s : State) : (s.tick).runState = s.runState := rfl
@[simp] theorem tick_fault (s : State) : (s.tick).fault = s.fault := rfl
@[simp] theorem tick_cfg (s : State) : (s.tick).cfg = s.cfg := rfl
@[simp] theorem tick_frameLeft (s : State) : (s.tick).frameLeft = s.frameLeft := rfl
@[simp] theorem tick_host (s : State) : (s.tick).host = s.host := rfl
@[simp] theorem tick_turns (s : State) : (s.tick).turns = s.turns := rfl
@[simp] theorem tick_rnd (s : State) : (s.tick).rnd = s.rnd := rfl
@[simp] theorem tick_draws (s : State) : (s.tick).draws = s.draws := rfl

/-! ### skipIf and setFlagThenV -/

theorem skipIf_eq (s : State) (c : Bool) : s.skipIf c = s.setPc (if c then s.pc + 2#16 else s.pc) := by
  cases c <;> rfl

@[simp] theorem skipIf_pc (s : State) (c : Bool) : (s.skipIf c).pc = if c then s.pc + 2#16 else s.pc := by
  cases c <;> rfl

theorem setFlagThenV_eq (s : State) (f : Bool) (x : Nibble) (b : Byte) :
    s.setFlagThenV f x b = { s with v := (s.setFlagThenV f x b).v } := rfl

/-! ### Registers -/

@[simp] theorem getV_setV_same (s : State) (x : Nibble) (b : Byte) : (s.setV x b).getV x = b := by
  simp [getV, setV]

theorem getV_setV_ne (s : State) {x r : Nibble} (b : Byte) (h : r ≠ x) : (s.setV x b).getV r = s.getV r := by
  have : x.toNat ≠ r.toNat := fun e => h (BitVec.eq_of_toNat_eq e.symm)
  simp [getV, setV, Vector.getElem_set_ne _ _ this]

theorem getV_setFlagThenV (s : State) (f : Bool) (x r : Nibble) (b : Byte) :
    (s.setFlagThenV f x b).getV r = if r = x then b else if r = vf then flagByte f else s.getV r := by
  unfold setFlagThenV
  split
  · subst_vars; simp
  · rename_i h
    rw [getV_setV_ne _ _ h]
    split
    · subst_vars; simp
    · rename_i h'; rw [getV_setV_ne _ _ h']

theorem getV_setVs (s : State) (bs : List Byte) (r : Nibble) : (s.setVs bs).getV r = bs.getD r.toNat (s.getV r) := by
  simp [getV, setVs]

/-- Two states agree on V when they agree on every register. -/
theorem v_ext {s t : State} (h : ∀ r, t.getV r = s.getV r) : t.v = s.v := by
  refine Vector.ext fun k hk => ?_
  have := h (BitVec.ofNat 4 k)
  simpa [getV, Nat.mod_eq_of_lt hk] using this

end State

end Sys2Proof.Machine
end

