-- ==== Sys2Proof/Laws/Ops.lean ====
section
/-! SUPPORT. One lemma for each shared operation, saying once what it does. -/

namespace Sys2Proof.Machine

/-! ## Memory through the state -/

/-- A byte after a list of stores inside memory. -/
theorem State.byteAt_storeBytes {s : State} (h : s.mem.wf = true) (a : Nat) (bs : List Byte)
    (ha : a + bs.length ≤ 0x1000) (c : Nat) :
    (s.storeBytes a bs).byteAt c = if a ≤ c then bs.getD (c - a) (s.byteAt c) else s.byteAt c :=
  Memory.read_writeList h a bs (by simpa using ha) c

theorem State.wf_storeBytes {s : State} (h : s.mem.wf = true) (a : Nat) (bs : List Byte)
    (ha : a + bs.length ≤ 0x1000) : (s.storeBytes a bs).mem.wf = true :=
  Memory.wf_writeList h (by simpa using ha)

@[simp] theorem State.length_loadBytes (s : State) (a n : Nat) : (s.loadBytes a n).length = n := by
  simp [loadBytes]

theorem State.getD_loadBytes (s : State) (a n k : Nat) (d : Byte) :
    (s.loadBytes a n).getD k d = if k < n then s.byteAt (a + k) else d := by
  unfold loadBytes
  by_cases h : k < n <;> simp [List.getD_eq_getElem?_getD, h]

theorem State.byteAt_congr {s t : State} (h : t.mem = s.mem) (a : Nat) : t.byteAt a = s.byteAt a := by
  simp only [State.byteAt, h]

/-! ## Operands -/

theorem State.inRange_iff (s : State) (n : Nat) : s.inRange n = true ↔ s.i.toNat + n ≤ 0x0FFF :=
  decide_eq_true_iff

theorem State.inRange_false_iff (s : State) (n : Nat) : s.inRange n = false ↔ 0x0FFF < s.i.toNat + n :=
  decide_eq_false_iff_not.trans Nat.not_le

theorem State.lowestOutOfRange_eq (s : State) : s.lowestOutOfRange = .ofNat 16 (max s.i.toNat 0x1000) := by
  unfold lowestOutOfRange
  split
  · rw [Nat.max_eq_right (by omega)]
  · rw [Nat.max_eq_left (by omega)]; simp

@[simp] theorem State.length_regsUpTo (s : State) (x : Nibble) : (s.regsUpTo x).length = x.toNat + 1 := by
  have := x.isLt
  simp [regsUpTo]; omega

theorem State.getD_regsUpTo (s : State) (x k : Nibble) (h : k.toNat ≤ x.toNat) (d : Byte) :
    (s.regsUpTo x).getD k.toNat d = s.getV k := by
  have hk := k.isLt
  simp [regsUpTo, getV, List.getD_eq_getElem?_getD, Nat.lt_succ_of_le h, hk]

@[simp] theorem length_decimalDigits (b : Byte) : (decimalDigits b).length = 3 := rfl

theorem toNat_zext16 {n : Nat} (a : BitVec n) (h : n ≤ 16) : (zext16 a).toNat = a.toNat := by
  have : a.toNat < 2 ^ 16 := Nat.lt_of_lt_of_le a.isLt (Nat.pow_le_pow_right (by omega) h)
  simpa [zext16] using this

theorem keyIndex_some {b : Byte} {k : Fin 16} : keyIndex b = some k ↔ b.toNat = k.val := by
  unfold keyIndex
  split
  · simp [Fin.ext_iff]
  · simp; omega

theorem keyIndex_none {b : Byte} : keyIndex b = none ↔ 0x0F < b.toNat := by
  unfold keyIndex
  split <;> simp <;> omega

/-- The lowest pressed key: it is pressed and none below it is. -/
theorem lowestKey_some {keys : Vector Bool 16} {k : Fin 16} :
    lowestKey keys = some k ↔ keys[k] = true ∧ ∀ j : Fin 16, j < k → keys[j] = false := by
  unfold lowestKey
  rw [List.find?_eq_some_iff_getElem]
  constructor
  · rintro ⟨hk, n, hn, hnk, hlt⟩
    refine ⟨hk, fun j hj => ?_⟩
    have hkn : k.val = n := by rw [← hnk]; simp
    have := hlt j.val (by omega)
    simpa using this
  · rintro ⟨hk, hlt⟩
    refine ⟨hk, k.val, by simp, by simp, fun j hj => ?_⟩
    have := hlt ⟨j, by omega⟩ (by simpa [Fin.lt_def] using hj)
    simpa using this

theorem lowestKey_none {keys : Vector Bool 16} : lowestKey keys = none ↔ ∀ k : Fin 16, keys[k] = false := by
  simp [lowestKey]

/-! ## The call stack -/

theorem State.pushReturn_of_lt {s : State} (w : Word) (h : s.sp.val < 12) :
    s.pushReturn w = some { s with stack := s.stack.set s.sp.val w, sp := ⟨s.sp.val + 1, Nat.succ_lt_succ h⟩ } := by
  simp [pushReturn, h]

theorem State.pushReturn_full {s : State} (w : Word) (h : s.sp.val = 12) : s.pushReturn w = none := by
  simp [pushReturn, h]

theorem State.popReturn_of_pos {s : State} (k : Fin 12) (h : s.sp.val = k.val + 1) :
    s.popReturn = some (s.stack[k], { s with sp := ⟨k.val, by omega⟩ }) := by
  have h0 : s.sp.val ≠ 0 := by omega
  simp [popReturn, h]

theorem State.popReturn_empty {s : State} (h : s.sp.val = 0) : s.popReturn = none := by
  simp [popReturn, h]

/-! ## The framebuffer -/

theorem Framebuffer.pixel_toggle (fb : Framebuffer) (x c : Fin 64) (y r : Fin 32) :
    (Framebuffer.toggle fb x y).pixel c r = (fb.pixel c r ^^ (decide (c = x) && decide (r = y))) := by
  unfold Framebuffer.toggle Framebuffer.pixel
  by_cases hc : c = x
  · subst hc
    by_cases hr : r = y
    · subst hr; simp
    · have : y.val ≠ r.val := fun h => hr (Fin.ext h.symm)
      simp [hr, Vector.getElem_set_ne _ _ this]
  · have : x.val ≠ c.val := fun h => hc (Fin.ext h.symm)
    simp [hc, Vector.getElem_set_ne _ _ this]

@[simp] theorem Framebuffer.pixel_clear (c : Fin 64) (r : Fin 32) : Framebuffer.clear.pixel c r = false := by
  simp [Framebuffer.clear, Framebuffer.pixel]

/-- Framebuffers with the same pixels are the same. -/
theorem Framebuffer.pixel_ext {a b : Framebuffer} (h : ∀ c r, a.pixel c r = b.pixel c r) : a = b := by
  refine Vector.ext fun c hc => Vector.ext fun r hr => ?_
  exact h ⟨c, hc⟩ ⟨r, hr⟩

end Sys2Proof.Machine
end

