-- ==== Sys2Proof/Laws/Display.lean ====
section
/-! SUPPORT. What drawing a row and a sprite does to every pixel and to the collision flag: one lemma for each of
`Canvas.drawBits` and `Canvas.drawRows`. -/

namespace Sys2Proof.Machine

/-- Whether one of the bits `k - 1` down to 0 of a sprite row is a 1 bit on column `c`. -/
def Canvas.rowBit (clip : Bool) (sprite : Byte) (x0 c k : Nat) : Bool :=
  let dx := (c + 64 - x0) % 64
  (!clip || decide (x0 ≤ c)) && (decide (dx < 8) && decide (7 - dx < k) && sprite.getLsbD (7 - dx))

theorem Canvas.rowBit_succ (clip : Bool) (sprite : Byte) (x0 c k : Nat) (hx : x0 < 64) (hc : c < 64) (hk : k < 8)
    (hcl : ¬ (clip = true ∧ 64 ≤ x0 + (7 - k))) :
    Canvas.rowBit clip sprite x0 c (k + 1) = ((decide (c = (x0 + (7 - k)) % 64) && sprite.getLsbD k) ^^ Canvas.rowBit clip sprite x0 c k) := by
  unfold Canvas.rowBit
  generalize hdx : (c + 64 - x0) % 64 = dx
  dsimp only
  by_cases h1 : dx = 7 - k
  · subst h1
    have h2 : c = (x0 + (7 - k)) % 64 := by omega
    have h3 : 7 - (7 - k) = k := by omega
    have h4 : 7 - k < 8 := by omega
    simp only [h3, h4, ← h2, Nat.lt_irrefl]
    cases clip
    · simp
    · have : x0 ≤ c := by simp at hcl; omega
      simp [this]
  · have h2 : c ≠ (x0 + (7 - k)) % 64 := by omega
    by_cases h5 : dx < 8
    · have : (7 - dx < k + 1) ↔ (7 - dx < k) := by omega
      simp [h2, this]
    · simp [h5, h2]

/-- Everything `drawBits` does. -/
theorem Canvas.drawBits_spec (clip : Bool) (sprite : Byte) (x0 : Nat) (y : Fin 32) (hx : x0 < 64) (k : Nat) (hk : k ≤ 8) (cv : Canvas) :
    (∀ c r, (Canvas.drawBits clip sprite x0 y k cv).1.pixel c r = (cv.1.pixel c r ^^ (decide (r = y) && Canvas.rowBit clip sprite x0 c.val k))) ∧
    ((Canvas.drawBits clip sprite x0 y k cv).2 = true ↔ cv.2 = true ∨ ∃ c : Fin 64, cv.1.pixel c y = true ∧ Canvas.rowBit clip sprite x0 c.val k = true) := by
  induction k generalizing cv with
  | zero =>
    have : ∀ c, Canvas.rowBit clip sprite x0 c 0 = false := by intro c; simp [Canvas.rowBit]
    simp [Canvas.drawBits, this]
  | succ k ih =>
    unfold Canvas.drawBits
    split
    · rename_i h
      simp only [Bool.and_eq_true, decide_eq_true_eq] at h
      have : ∀ c : Fin 64, Canvas.rowBit clip sprite x0 c.val (k + 1) = false := by
        intro c
        unfold Canvas.rowBit
        have := c.isLt
        by_cases h1 : x0 ≤ c.val
        · by_cases h2 : (c.val + 64 - x0) % 64 < 8
          · have : ¬ 7 - (c.val + 64 - x0) % 64 < k + 1 := by omega
            simp [this]
          · simp [h2]
        · simp [h.1, h1]
      simp [this]
    · rename_i h
      simp only [Bool.and_eq_true, decide_eq_true_eq] at h
      obtain ⟨ih1, ih2⟩ := ih (by omega) (if sprite.getLsbD k then cv.plot (Fin.ofNat 64 (x0 + (7 - k))) y else cv)
      have hs := fun c : Fin 64 => Canvas.rowBit_succ clip sprite x0 c.val k hx c.isLt (by omega) h
      have hcol : ∀ c : Fin 64, (c = Fin.ofNat 64 (x0 + (7 - k))) ↔ c.val = (x0 + (7 - k)) % 64 := by
        intro c; rw [Fin.ext_iff]; rfl
      have hofn : (Fin.ofNat 64 (x0 + (7 - k))).val = (x0 + (7 - k)) % 64 := rfl
      generalize Fin.ofNat 64 (x0 + (7 - k)) = q at ih1 ih2 hcol hofn ⊢
      constructor
      · intro c r
        rw [ih1, hs]
        by_cases hb : sprite.getLsbD k = true
        · rw [if_pos hb]
          simp only [Canvas.plot]
          rw [Framebuffer.pixel_toggle]
          simp only [hcol, hb]
          by_cases hr : r = y <;> simp [hr]
        · simp at hb
          simp [hb]
      · rw [ih2]
        by_cases hb : sprite.getLsbD k = true
        · rw [if_pos hb]
          simp only [Canvas.plot, Framebuffer.pixel_toggle, Bool.or_eq_true, hs, hb, Bool.and_true]
          have hnot : Canvas.rowBit clip sprite x0 ((x0 + (7 - k)) % 64) k = false := by
            unfold Canvas.rowBit
            by_cases h2 : ((x0 + (7 - k)) % 64 + 64 - x0) % 64 < 8
            · have : ¬ 7 - ((x0 + (7 - k)) % 64 + 64 - x0) % 64 < k := by omega
              simp [this]
            · simp [h2]
          constructor
          · rintro ((h0 | h0) | ⟨c, h0, h1⟩)
            · exact .inl h0
            · exact .inr ⟨_, h0, by rw [hofn, hnot]; simp⟩
            · refine .inr ⟨c, ?_, ?_⟩
              · by_cases hc : c.val = (x0 + (7 - k)) % 64
                · rw [hc, hnot] at h1; cases h1
                · simpa [hcol, hc] using h0
              · by_cases hc : c.val = (x0 + (7 - k)) % 64
                · rw [hc, hnot] at h1; cases h1
                · simp [hc, h1]
          · rintro (h0 | ⟨c, h0, h1⟩)
            · exact .inl (.inl h0)
            · by_cases hc : c.val = (x0 + (7 - k)) % 64
              · have : c = q := (hcol c).2 hc
                subst this
                exact .inl (.inr h0)
              · refine .inr ⟨c, ?_, ?_⟩
                · simp [hcol, hc, h0]
                · simpa [hc] using h1
        · simp at hb
          simp [hb, hs]

/-- Whether a sprite of rows `bs`, the first on row `y`, has a 1 bit on column `c`, row `r`. -/
def Canvas.spriteAt (clip : Bool) (x0 : Nat) (bs : List Byte) (y c r : Nat) : Bool :=
  let dy := (r + 64 - y) % 32
  decide (dy < bs.length) && Canvas.rowBit clip (bs.getD dy 0) x0 c 8

theorem Canvas.spriteAt_cons (clip : Bool) (x0 : Nat) (b : Byte) (bs : List Byte) (y c : Nat) (r : Fin 32) (hb : y + bs.length < 60) (hl : bs.length < 31) :
    Canvas.spriteAt clip x0 (b :: bs) y c r.val = ((decide (r = Fin.ofNat 32 y) && Canvas.rowBit clip b x0 c 8) ^^ Canvas.spriteAt clip x0 bs (y + 1) c r.val) := by
  have hr := r.isLt
  have he : (r = Fin.ofNat 32 y) ↔ r.val = y % 32 := by rw [Fin.ext_iff]; rfl
  unfold Canvas.spriteAt
  dsimp only
  generalize Fin.ofNat 32 y = q at he ⊢
  by_cases h : r.val = y % 32
  · have h1 : (r.val + 64 - y) % 32 = 0 := by omega
    have h2 : (r.val + 64 - (y + 1)) % 32 = 31 := by omega
    have h3 : ¬ 31 < bs.length := by omega
    have hq := he.2 h
    rw [h1, h2]
    simp [h3, hq]
  · have h1 : (r.val + 64 - y) % 32 = (r.val + 64 - (y + 1)) % 32 + 1 := by omega
    have hq : ¬ r = q := fun e => h (he.1 e)
    rw [h1]
    simp [hq]

theorem Canvas.spriteAt_excl (clip : Bool) (x0 : Nat) (bs : List Byte) (y c : Nat) (hb : y + bs.length < 60) (hl : bs.length < 31) :
    Canvas.spriteAt clip x0 bs (y + 1) c (y % 32) = false := by
  unfold Canvas.spriteAt
  dsimp only
  have h2 : (y % 32 + 64 - (y + 1)) % 32 = 31 := by omega
  have h3 : ¬ 31 < bs.length := by omega
  rw [h2]; simp [h3]

/-- Everything `drawRows` does. -/
theorem Canvas.drawRows_spec (clip : Bool) (x0 : Nat) (hx : x0 < 64) (bs : List Byte) (y : Nat) (hy : y + bs.length < 60) (hl : bs.length < 31) (cv : Canvas) :
    (∀ c r, (Canvas.drawRows clip x0 bs y cv).1.pixel c r = (cv.1.pixel c r ^^ Canvas.spriteAt clip x0 bs y c.val r.val)) ∧
    ((Canvas.drawRows clip x0 bs y cv).2 = true ↔ cv.2 = true ∨ ∃ (c : Fin 64) (r : Fin 32), cv.1.pixel c r = true ∧ Canvas.spriteAt clip x0 bs y c.val r.val = true) := by
  induction bs generalizing y cv with
  | nil =>
    simp [Canvas.drawRows, Canvas.spriteAt]
  | cons b bs ih =>
    simp only [List.length_cons] at hy hl
    unfold Canvas.drawRows
    obtain ⟨d1, d2⟩ := Canvas.drawBits_spec clip b x0 (Fin.ofNat 32 y) hx 8 (Nat.le_refl _) cv
    obtain ⟨ih1, ih2⟩ := ih (y + 1) (by omega) (by omega) (Canvas.drawBits clip b x0 (Fin.ofNat 32 y) 8 cv)
    have hc := fun (c : Fin 64) (r : Fin 32) => Canvas.spriteAt_cons clip x0 b bs y c.val r (by omega) (by omega)
    have hex : ∀ c : Fin 64, Canvas.spriteAt clip x0 bs (y + 1) c.val (Fin.ofNat 32 y).val = false := fun c => Canvas.spriteAt_excl clip x0 bs y c.val (by omega) (by omega)
    generalize Fin.ofNat 32 y = q at d1 d2 ih1 ih2 hc hex ⊢
    constructor
    · intro c r
      rw [ih1, d1, hc]
      simp
    · rw [ih2, d2]
      constructor
      · rintro ((h | ⟨c, h1, h2⟩) | ⟨c, r, h1, h2⟩)
        · exact .inl h
        · refine .inr ⟨c, q, h1, ?_⟩
          rw [hc, hex, h2]; simp
        · by_cases hr : r = q
          · subst hr; rw [hex] at h2; cases h2
          · refine .inr ⟨c, r, ?_, ?_⟩
            · rw [d1] at h1; simpa [hr] using h1
            · rw [hc]; simp [hr, h2]
      · rintro (h | ⟨c, r, h1, h2⟩)
        · exact .inl (.inl h)
        · by_cases hr : r = q
          · subst hr
            rw [hc, hex] at h2
            exact .inl (.inr ⟨c, h1, by simpa using h2⟩)
          · refine .inr ⟨c, r, ?_, ?_⟩
            · rw [d1]; simp [hr, h1]
            · rw [hc] at h2; simpa [hr] using h2

end Sys2Proof.Machine
end

