-- ==== Sys2Proof/Laws/Step.lean ====
section
/-! SUPPORT. What a step can be: the cases of the instruction step and of the controller around it. -/

namespace Sys2Proof.Machine

open Host (Outcome)

/-! ## The instruction step -/

@[simp] theorem mapNext_next (f : State → State) (t : State) : mapNext f (.next t) = .next (f t) := rfl

theorem mapNext_eq_next {f : State → State} {o : Outcome State Fault Refusal} {t : State}
    (h : mapNext f o = .next t) : ∃ u, o = .next u ∧ t = f u := by
  cases o with
  | next u => exact ⟨u, rfl, by simpa using h.symm⟩
  | fault _ => cases h
  | refused _ => cases h

theorem State.canFetch_iff (s : State) : s.canFetch = true ↔ s.pc.toNat ≤ 0x0FFE := by
  simp [canFetch]

theorem instructionStep_decoded {s : State} {i : Instr} (hf : s.pc.toNat ≤ 0x0FFE)
    (hd : decodeWord s.fetchWord = .ok i) : instructionStep s = exec i s.advance := by
  simp [instructionStep, (s.canFetch_iff).2 hf, hd]

theorem instructionStep_unrecognized {s : State} {e : Reject} (hf : s.pc.toNat ≤ 0x0FFE)
    (hd : decodeWord s.fetchWord = .error e) : instructionStep s = .next s.advance := by
  simp [instructionStep, (s.canFetch_iff).2 hf, hd]

theorem instructionStep_outOfBounds {s : State} (hf : 0x0FFE < s.pc.toNat) :
    instructionStep s = .next s.fetchFault := by
  have : s.canFetch = false := by simp [State.canFetch]; omega
  simp [instructionStep, this]

/-- The three cases of an instruction step: a fetch fault, a no-op, or the decoded instruction. -/
theorem instructionStep_cases (s : State) :
    (0x0FFE < s.pc.toNat ∧ instructionStep s = .next s.fetchFault) ∨
    (s.pc.toNat ≤ 0x0FFE ∧ instructionStep s = .next s.advance) ∨
    ∃ i, s.pc.toNat ≤ 0x0FFE ∧ decodeWord s.fetchWord = .ok i ∧ instructionStep s = exec i s.advance := by
  by_cases hf : s.pc.toNat ≤ 0x0FFE
  · cases hd : decodeWord s.fetchWord with
    | ok i => exact .inr (.inr ⟨i, hf, rfl, instructionStep_decoded hf hd⟩)
    | error e => exact .inr (.inl ⟨hf, instructionStep_unrecognized hf hd⟩)
  · exact .inl ⟨by omega, instructionStep_outOfBounds (by omega)⟩

/-! ## The controller -/

theorem State.midFrame_iff (s : State) : s.midFrame = true ↔ s.runState = .running ∧ s.frameLeft ≠ 0 := by
  simp [midFrame]

theorem State.enterFrame_of_midFrame {s : State} (h : s.midFrame = true) : s.enterFrame = s := by
  simp [enterFrame, h]

theorem State.enterFrame_of_boundary {s : State} (h : s.midFrame = false) : s.enterFrame = s.hostTurn := by
  simp [enterFrame, h]

theorem step_in_frame {s : State} (h : s.enterFrame.midFrame = true) :
    step s = mapNext State.endStep (instructionStep s.enterFrame) := by
  simp [step, controllerStep, h]

theorem step_without_instruction {s : State} (h : s.enterFrame.midFrame = false) :
    step s = .next s.enterFrame.emptyFrame := by
  simp [step, controllerStep, h]

/-- The two cases of a step that answers a next state. -/
theorem step_next_cases {s t : State} (h : step s = .next t) :
    (s.enterFrame.midFrame = true ∧ ∃ u, instructionStep s.enterFrame = .next u ∧ t = u.endStep) ∨
    (s.enterFrame.midFrame = false ∧ t = s.enterFrame.emptyFrame) := by
  cases hm : s.enterFrame.midFrame with
  | true =>
    rw [step_in_frame hm] at h
    exact .inl ⟨rfl, mapNext_eq_next h⟩
  | false =>
    rw [step_without_instruction hm] at h
    exact .inr ⟨rfl, by simpa using h.symm⟩

/-- The host's turn where the machine is Running after the command: the keys are latched and a frame is open. -/
theorem State.hostTurn_running {s : State} (h : applyCommand s.nextTurn.cmd s.runState = .running) :
    s.hostTurn = { s.takeTurn with keys := s.nextTurn.keys, frameLeft := stepsPerFrame s.cfg } := by
  simp [hostTurn, openFrame, takeTurn, h]

/-- The host's turn where the machine is not Running after the command: no frame. -/
theorem State.hostTurn_held {s : State} (h : applyCommand s.nextTurn.cmd s.runState ≠ .running) :
    s.hostTurn = { s.takeTurn with frameLeft := 0 } := by
  simp [hostTurn, openFrame, takeTurn, h]

end Sys2Proof.Machine
end

