-- ==== Sys2Proof/Laws/Exec.lean ====
section
/-! SUPPORT. What an instruction and the controller's end of a step can do to the fields of a state, said once. -/

namespace Sys2Proof.Machine

open Host (Outcome)

theorem State.popReturn_frame {s t : State} {w : Word} (h : s.popReturn = some (w, t)) :
    ∃ k, t = { s with sp := k } := by
  unfold State.popReturn at h
  split at h
  · cases h
  · cases h; exact ⟨_, rfl⟩

theorem State.pushReturn_frame {s t : State} {w : Word} (h : s.pushReturn w = some t) :
    ∃ k st, t = { s with sp := k, stack := st } := by
  unfold State.pushReturn at h
  split at h
  · cases h; exact ⟨_, _, rfl⟩
  · cases h

theorem State.skipIf_frame (s : State) (c : Bool) : ∃ p, s.skipIf c = { s with pc := p } := by
  unfold State.skipIf; split
  · exact ⟨_, rfl⟩
  · exact ⟨s.pc, rfl⟩

/-- The next state of an instruction: a raised fault, or one of nine groups of fields written. -/
theorem exec_next_cases (i : Instr) (s t : State) (h : exec i s = .next t) :
    (∃ c a, t = s.raise c i a) ∨
    (∃ p sp stk, t = { s with pc := p, sp := sp, stack := stk } ∧ i.mnemonic ∈ [.ret, .call]) ∨
    (∃ p, t = { s with pc := p } ∧ i.mnemonic ∈ [.jp, .jpV0, .seImm, .sneImm, .seReg, .sneReg, .skp, .sknp, .ldVxK]) ∨
    (∃ v, t = { s with v := v } ∧ i.mnemonic ∈ [.ldImm, .addImm, .ldReg, .or, .and, .xor, .addReg, .sub, .shr, .subn, .shl, .ldVxDt, .ldVxK, .ldVxMem]) ∨
    (∃ v, t = { s with v := v, rnd := s.rnd.tail, draws := s.draws + 1 } ∧ i.mnemonic = .rnd) ∨
    (∃ w, t = { s with i := w } ∧ i.mnemonic ∈ [.ldI, .addIVx, .ldFVx]) ∨
    (∃ m, t = { s with mem := m } ∧ i.mnemonic ∈ [.ldBVx, .ldMemVx]) ∨
    (∃ fb v, t = { s with fb := fb, v := v } ∧ i.mnemonic ∈ [.cls, .drw]) ∨
    (∃ b, t = { s with dt := b } ∧ i.mnemonic = .ldDtVx) ∨
    (∃ b, t = { s with st := b } ∧ i.mnemonic = .ldStVx) := by
  cases i <;> simp only [exec] at h
  case ret x =>
    unfold execRet at h; split at h <;> cases h
    · exact .inl ⟨_, _, rfl⟩
    · rename_i w t hp
      obtain ⟨k, rfl⟩ := State.popReturn_frame hp
      exact .inr (.inl ⟨_, _, s.stack, rfl, by simp [Instr.mnemonic]⟩)
  case call x =>
    unfold execCall at h; split at h <;> cases h
    · exact .inl ⟨_, _, rfl⟩
    · rename_i t hp
      obtain ⟨k, st, rfl⟩ := State.pushReturn_frame hp
      exact .inr (.inl ⟨_, _, _, rfl, by simp [Instr.mnemonic]⟩)
  case jp x => cases h; exact .inr (.inr (.inl ⟨_, rfl, by simp [Instr.mnemonic]⟩))
  case jpV0 x => cases h; exact .inr (.inr (.inl ⟨_, rfl, by simp [Instr.mnemonic]⟩))
  case seImm x y => cases h; obtain ⟨p, hp⟩ := State.skipIf_frame s (s.getV x == y); exact .inr (.inr (.inl ⟨_, hp, by simp [Instr.mnemonic]⟩))
  case sneImm x y => cases h; obtain ⟨p, hp⟩ := State.skipIf_frame s (s.getV x != y); exact .inr (.inr (.inl ⟨_, hp, by simp [Instr.mnemonic]⟩))
  case seReg x y n => cases h; obtain ⟨p, hp⟩ := State.skipIf_frame s (s.getV x == s.getV y); exact .inr (.inr (.inl ⟨_, hp, by simp [Instr.mnemonic]⟩))
  case sneReg x y n => cases h; obtain ⟨p, hp⟩ := State.skipIf_frame s (s.getV x != s.getV y); exact .inr (.inr (.inl ⟨_, hp, by simp [Instr.mnemonic]⟩))
  case skp x =>
    unfold execSkp at h; split at h <;> cases h
    · exact .inl ⟨_, _, rfl⟩
    · rename_i k _
      obtain ⟨p, hp⟩ := State.skipIf_frame s s.keys[k]; exact .inr (.inr (.inl ⟨_, hp, by simp [Instr.mnemonic]⟩))
  case sknp x =>
    unfold execSknp at h; split at h <;> cases h
    · exact .inl ⟨_, _, rfl⟩
    · rename_i k _
      obtain ⟨p, hp⟩ := State.skipIf_frame s (!s.keys[k]); exact .inr (.inr (.inl ⟨_, hp, by simp [Instr.mnemonic]⟩))
  case ldVxK x =>
    unfold execLdVxK at h; split at h <;> cases h
    · exact .inr (.inr (.inr (.inl ⟨_, rfl, by simp [Instr.mnemonic]⟩)))
    · exact .inr (.inr (.inl ⟨_, rfl, by simp [Instr.mnemonic]⟩))
  case ldBVx x =>
    unfold execLdBVx at h; split at h <;> cases h
    · exact .inr (.inr (.inr (.inr (.inr (.inr (.inl ⟨_, rfl, by simp [Instr.mnemonic]⟩))))))
    · exact .inl ⟨_, _, rfl⟩
  case ldMemVx x =>
    unfold execLdMemVx at h; split at h <;> cases h
    · exact .inr (.inr (.inr (.inr (.inr (.inr (.inl ⟨_, rfl, by simp [Instr.mnemonic]⟩))))))
    · exact .inl ⟨_, _, rfl⟩
  case ldVxMem x =>
    unfold execLdVxMem at h; split at h <;> cases h
    · exact .inr (.inr (.inr (.inl ⟨_, rfl, by simp [Instr.mnemonic]⟩)))
    · exact .inl ⟨_, _, rfl⟩
  case drw x y n =>
    unfold execDrw at h; split at h <;> cases h
    · exact .inr (.inr (.inr (.inr (.inr (.inr (.inr (.inl ⟨_, _, rfl, by simp [Instr.mnemonic]⟩)))))))
    · exact .inl ⟨_, _, rfl⟩
  case cls x => cases h; exact .inr (.inr (.inr (.inr (.inr (.inr (.inr (.inl ⟨_, s.v, rfl, by simp [Instr.mnemonic]⟩)))))))
  case rnd x n => cases h; exact .inr (.inr (.inr (.inr (.inl ⟨_, rfl, by simp [Instr.mnemonic]⟩))))
  case ldI x => cases h; exact .inr (.inr (.inr (.inr (.inr (.inl ⟨_, rfl, by simp [Instr.mnemonic]⟩)))))
  case addIVx x => cases h; exact .inr (.inr (.inr (.inr (.inr (.inl ⟨_, rfl, by simp [Instr.mnemonic]⟩)))))
  case ldFVx x => cases h; exact .inr (.inr (.inr (.inr (.inr (.inl ⟨_, rfl, by simp [Instr.mnemonic]⟩)))))
  case ldDtVx x => cases h; exact .inr (.inr (.inr (.inr (.inr (.inr (.inr (.inr (.inl ⟨_, rfl, by simp [Instr.mnemonic]⟩))))))))
  case ldStVx x => cases h; exact .inr (.inr (.inr (.inr (.inr (.inr (.inr (.inr (.inr ⟨_, rfl, by simp [Instr.mnemonic]⟩))))))))
  all_goals (cases h; exact .inr (.inr (.inr (.inl ⟨_, rfl, by simp [Instr.mnemonic]⟩))))

/-- The three ends of a step. -/
theorem State.endStep_cases (u : State) :
    (u.runState = .faulted ∧ u.endStep = { u with frameLeft := 0 }) ∨
    (u.runState ≠ .faulted ∧ u.frameLeft ≤ 1 ∧ u.endStep = { u with frameLeft := 0, dt := tickByte u.dt, st := tickByte u.st }) ∨
    (u.runState ≠ .faulted ∧ 1 < u.frameLeft ∧ u.endStep = { u with frameLeft := u.frameLeft - 1 }) := by
  unfold State.endStep
  split
  · exact .inl ⟨‹_›, rfl⟩
  · split
    · exact .inr (.inl ⟨‹_›, ‹_›, rfl⟩)
    · exact .inr (.inr ⟨‹_›, by omega, rfl⟩)

/-- A run of `k + 1` steps whose first answers a next state goes on from it. -/
theorem run_of_next (M : Host.Core) (k : Nat) {s t : M.State} (h : M.step s = .next t) : M.run (k + 1) s = M.run k t := by
  simp only [Host.Core.run, h]

end Sys2Proof.Machine
end

