-- ==== Sys2Proof/Laws/PerInstr.lean ====
section
/-! SUPPORT. Statements made per instruction: every instruction's word matches its own row of the opcode table
(spec/30_encoding.md R72). -/

namespace Sys2Proof.Laws.MatchesTableRow

/-- The word of `i` matches the mask and match of its row. -/
def Statement (i : Instr) : Prop := encode i &&& i.mnemonic.row.mask = i.mnemonic.row.value

/-- A word matches a row when the masked number is the row's. -/
theorem of_toNat {i : Instr} (h : (encode i &&& i.mnemonic.row.mask).toNat = i.mnemonic.row.value.toNat) :
    Statement i := BitVec.eq_of_toNat_eq h

theorem cls (x : Nibble) : Statement (.cls x) := of_toNat <| by
  simp only [encode, Instr.mnemonic, Mnemonic.row, toNat_and_F0FF, toNat_packXNN, BitVec.toNat_ofNat]; omega
theorem ret (x : Nibble) : Statement (.ret x) := of_toNat <| by
  simp only [encode, Instr.mnemonic, Mnemonic.row, toNat_and_F0FF, toNat_packXNN, BitVec.toNat_ofNat]; omega
theorem jp (nnn : Addr12) : Statement (.jp nnn) := of_toNat <| by
  simp only [encode, Instr.mnemonic, Mnemonic.row, toNat_and_F000, toNat_packNNN, BitVec.toNat_ofNat]; omega
theorem call (nnn : Addr12) : Statement (.call nnn) := of_toNat <| by
  simp only [encode, Instr.mnemonic, Mnemonic.row, toNat_and_F000, toNat_packNNN, BitVec.toNat_ofNat]; omega
theorem seImm (x : Nibble) (nn : Byte) : Statement (.seImm x nn) := of_toNat <| by
  simp only [encode, Instr.mnemonic, Mnemonic.row, toNat_and_F000, toNat_packXNN, BitVec.toNat_ofNat]; omega
theorem sneImm (x : Nibble) (nn : Byte) : Statement (.sneImm x nn) := of_toNat <| by
  simp only [encode, Instr.mnemonic, Mnemonic.row, toNat_and_F000, toNat_packXNN, BitVec.toNat_ofNat]; omega
theorem seReg (x : Nibble) (y : Nibble) (n : Nibble) : Statement (.seReg x y n) := of_toNat <| by
  simp only [encode, Instr.mnemonic, Mnemonic.row, toNat_and_F000, toNat_packXYN, BitVec.toNat_ofNat]; omega
theorem ldImm (x : Nibble) (nn : Byte) : Statement (.ldImm x nn) := of_toNat <| by
  simp only [encode, Instr.mnemonic, Mnemonic.row, toNat_and_F000, toNat_packXNN, BitVec.toNat_ofNat]; omega
theorem addImm (x : Nibble) (nn : Byte) : Statement (.addImm x nn) := of_toNat <| by
  simp only [encode, Instr.mnemonic, Mnemonic.row, toNat_and_F000, toNat_packXNN, BitVec.toNat_ofNat]; omega
theorem ldReg (x : Nibble) (y : Nibble) : Statement (.ldReg x y) := of_toNat <| by
  simp only [encode, Instr.mnemonic, Mnemonic.row, toNat_and_F00F, toNat_packXYN, BitVec.toNat_ofNat]; omega
theorem or (x : Nibble) (y : Nibble) : Statement (.or x y) := of_toNat <| by
  simp only [encode, Instr.mnemonic, Mnemonic.row, toNat_and_F00F, toNat_packXYN, BitVec.toNat_ofNat]; omega
theorem and (x : Nibble) (y : Nibble) : Statement (.and x y) := of_toNat <| by
  simp only [encode, Instr.mnemonic, Mnemonic.row, toNat_and_F00F, toNat_packXYN, BitVec.toNat_ofNat]; omega
theorem xor (x : Nibble) (y : Nibble) : Statement (.xor x y) := of_toNat <| by
  simp only [encode, Instr.mnemonic, Mnemonic.row, toNat_and_F00F, toNat_packXYN, BitVec.toNat_ofNat]; omega
theorem addReg (x : Nibble) (y : Nibble) : Statement (.addReg x y) := of_toNat <| by
  simp only [encode, Instr.mnemonic, Mnemonic.row, toNat_and_F00F, toNat_packXYN, BitVec.toNat_ofNat]; omega
theorem sub (x : Nibble) (y : Nibble) : Statement (.sub x y) := of_toNat <| by
  simp only [encode, Instr.mnemonic, Mnemonic.row, toNat_and_F00F, toNat_packXYN, BitVec.toNat_ofNat]; omega
theorem shr (x : Nibble) (y : Nibble) : Statement (.shr x y) := of_toNat <| by
  simp only [encode, Instr.mnemonic, Mnemonic.row, toNat_and_F00F, toNat_packXYN, BitVec.toNat_ofNat]; omega
theorem subn (x : Nibble) (y : Nibble) : Statement (.subn x y) := of_toNat <| by
  simp only [encode, Instr.mnemonic, Mnemonic.row, toNat_and_F00F, toNat_packXYN, BitVec.toNat_ofNat]; omega
theorem shl (x : Nibble) (y : Nibble) : Statement (.shl x y) := of_toNat <| by
  simp only [encode, Instr.mnemonic, Mnemonic.row, toNat_and_F00F, toNat_packXYN, BitVec.toNat_ofNat]; omega
theorem sneReg (x : Nibble) (y : Nibble) (n : Nibble) : Statement (.sneReg x y n) := of_toNat <| by
  simp only [encode, Instr.mnemonic, Mnemonic.row, toNat_and_F000, toNat_packXYN, BitVec.toNat_ofNat]; omega
theorem ldI (nnn : Addr12) : Statement (.ldI nnn) := of_toNat <| by
  simp only [encode, Instr.mnemonic, Mnemonic.row, toNat_and_F000, toNat_packNNN, BitVec.toNat_ofNat]; omega
theorem jpV0 (nnn : Addr12) : Statement (.jpV0 nnn) := of_toNat <| by
  simp only [encode, Instr.mnemonic, Mnemonic.row, toNat_and_F000, toNat_packNNN, BitVec.toNat_ofNat]; omega
theorem rnd (x : Nibble) (nn : Byte) : Statement (.rnd x nn) := of_toNat <| by
  simp only [encode, Instr.mnemonic, Mnemonic.row, toNat_and_F000, toNat_packXNN, BitVec.toNat_ofNat]; omega
theorem drw (x : Nibble) (y : Nibble) (n : Nibble) : Statement (.drw x y n) := of_toNat <| by
  simp only [encode, Instr.mnemonic, Mnemonic.row, toNat_and_F000, toNat_packXYN, BitVec.toNat_ofNat]; omega
theorem skp (x : Nibble) : Statement (.skp x) := of_toNat <| by
  simp only [encode, Instr.mnemonic, Mnemonic.row, toNat_and_F0FF, toNat_packXNN, BitVec.toNat_ofNat]; omega
theorem sknp (x : Nibble) : Statement (.sknp x) := of_toNat <| by
  simp only [encode, Instr.mnemonic, Mnemonic.row, toNat_and_F0FF, toNat_packXNN, BitVec.toNat_ofNat]; omega
theorem ldVxDt (x : Nibble) : Statement (.ldVxDt x) := of_toNat <| by
  simp only [encode, Instr.mnemonic, Mnemonic.row, toNat_and_F0FF, toNat_packXNN, BitVec.toNat_ofNat]; omega
theorem ldVxK (x : Nibble) : Statement (.ldVxK x) := of_toNat <| by
  simp only [encode, Instr.mnemonic, Mnemonic.row, toNat_and_F0FF, toNat_packXNN, BitVec.toNat_ofNat]; omega
theorem ldDtVx (x : Nibble) : Statement (.ldDtVx x) := of_toNat <| by
  simp only [encode, Instr.mnemonic, Mnemonic.row, toNat_and_F0FF, toNat_packXNN, BitVec.toNat_ofNat]; omega
theorem ldStVx (x : Nibble) : Statement (.ldStVx x) := of_toNat <| by
  simp only [encode, Instr.mnemonic, Mnemonic.row, toNat_and_F0FF, toNat_packXNN, BitVec.toNat_ofNat]; omega
theorem addIVx (x : Nibble) : Statement (.addIVx x) := of_toNat <| by
  simp only [encode, Instr.mnemonic, Mnemonic.row, toNat_and_F0FF, toNat_packXNN, BitVec.toNat_ofNat]; omega
theorem ldFVx (x : Nibble) : Statement (.ldFVx x) := of_toNat <| by
  simp only [encode, Instr.mnemonic, Mnemonic.row, toNat_and_F0FF, toNat_packXNN, BitVec.toNat_ofNat]; omega
theorem ldBVx (x : Nibble) : Statement (.ldBVx x) := of_toNat <| by
  simp only [encode, Instr.mnemonic, Mnemonic.row, toNat_and_F0FF, toNat_packXNN, BitVec.toNat_ofNat]; omega
theorem ldMemVx (x : Nibble) : Statement (.ldMemVx x) := of_toNat <| by
  simp only [encode, Instr.mnemonic, Mnemonic.row, toNat_and_F0FF, toNat_packXNN, BitVec.toNat_ofNat]; omega
theorem ldVxMem (x : Nibble) : Statement (.ldVxMem x) := of_toNat <| by
  simp only [encode, Instr.mnemonic, Mnemonic.row, toNat_and_F0FF, toNat_packXNN, BitVec.toNat_ofNat]; omega

end Sys2Proof.Laws.MatchesTableRow
end

