-- ==== Sys2Proof/Tests/Slice0.lean ====
section
/-! SUPPORT. The model's own tests.  Expected results are the spec's: the encodings of spec/opcode_table.json and the
vectors of spec/95_test_vectors.md, named in each comment. -/

namespace Sys2Proof.Tests

open Sys2Proof.Machine

/-! ## Assembler lines: one refused line for each check (spec/30_encoding.md R84) -/

theorem test_wf_accepts : (SourceLine.op .drw ⟨15, 15, 15, 255, 4095⟩).wellFormed = true := by decide
theorem test_wf_refuses_x : (SourceLine.op .ldImm { x := 16, nn := 1 }).wellFormed = false := by decide
theorem test_wf_refuses_y : (SourceLine.op .ldReg { x := 1, y := 16 }).wellFormed = false := by decide
theorem test_wf_refuses_n : (SourceLine.op .drw { n := 16 }).wellFormed = false := by decide
theorem test_wf_refuses_nn : (SourceLine.op .ldImm { nn := 256 }).wellFormed = false := by decide
theorem test_wf_refuses_nnn : (SourceLine.op .jp { nnn := 4096 }).wellFormed = false := by decide
theorem test_wf_refuses_dw : (SourceLine.dw 65536).wellFormed = false := by decide
theorem test_wf_refused_line_has_no_word : (SourceLine.op .jp { nnn := 4096 }).assemble = none := by decide
/-- Program P1: `LD V0, 0xFA` is 60FA; program P6: `DW 0x0000`. -/
theorem test_assemble_ld : (SourceLine.op .ldImm { x := 0, nn := 0xFA }).assemble = some 0x60FA#16 := by decide
theorem test_assemble_cls : (SourceLine.op .cls {}).assemble = some 0x00E0#16 := by decide

/-! ## Decoding: for each constructor a word written out from its encoding (spec/opcode_table.json) -/

theorem test_decode_cls : decodeWord 0b0000000011100000#16 = .ok (.cls 0) := by decide
theorem test_decode_cls_x : decodeWord 0b0000101011100000#16 = .ok (.cls 0xA) := by decide
theorem test_decode_ret : decodeWord 0b0000010111101110#16 = .ok (.ret 5) := by decide
theorem test_decode_jp : decodeWord 0b0001001000110100#16 = .ok (.jp 0x234) := by decide
theorem test_decode_call : decodeWord 0b0010001100000000#16 = .ok (.call 0x300) := by decide
theorem test_decode_seImm : decodeWord 0b0011001101000010#16 = .ok (.seImm 3 0x42) := by decide
theorem test_decode_sneImm : decodeWord 0b0100000000000000#16 = .ok (.sneImm 0 0) := by decide
theorem test_decode_seReg : decodeWord 0b0101000100100001#16 = .ok (.seReg 1 2 1) := by decide
theorem test_decode_ldImm : decodeWord 0b0110101001000010#16 = .ok (.ldImm 0xA 0x42) := by decide
theorem test_decode_addImm : decodeWord 0b0111001000100000#16 = .ok (.addImm 2 0x20) := by decide
theorem test_decode_ldReg : decodeWord 0b1000000000010000#16 = .ok (.ldReg 0 1) := by decide
theorem test_decode_or : decodeWord 0b1000000000010001#16 = .ok (.or 0 1) := by decide
theorem test_decode_and : decodeWord 0b1000000000010010#16 = .ok (.and 0 1) := by decide
theorem test_decode_xor : decodeWord 0b1000000000010011#16 = .ok (.xor 0 1) := by decide
theorem test_decode_addReg : decodeWord 0b1000111100010100#16 = .ok (.addReg 0xF 1) := by decide
theorem test_decode_sub : decodeWord 0b1000000000010101#16 = .ok (.sub 0 1) := by decide
theorem test_decode_shr : decodeWord 0b1000010001010110#16 = .ok (.shr 4 5) := by decide
theorem test_decode_subn : decodeWord 0b1000000000010111#16 = .ok (.subn 0 1) := by decide
theorem test_decode_shl : decodeWord 0b1000001000001110#16 = .ok (.shl 2 0) := by decide
theorem test_decode_sneReg : decodeWord 0b1001000100100001#16 = .ok (.sneReg 1 2 1) := by decide
theorem test_decode_ldI : decodeWord 0b1010001011110000#16 = .ok (.ldI 0x2F0) := by decide
theorem test_decode_jpV0 : decodeWord 0b1011001100000000#16 = .ok (.jpV0 0x300) := by decide
theorem test_decode_rnd : decodeWord 0b1100001100001111#16 = .ok (.rnd 3 0x0F) := by decide
theorem test_decode_drw : decodeWord 0b1101000000010101#16 = .ok (.drw 0 1 5) := by decide
theorem test_decode_skp : decodeWord 0b1110010110011110#16 = .ok (.skp 5) := by decide
theorem test_decode_sknp : decodeWord 0b1110010110100001#16 = .ok (.sknp 5) := by decide
theorem test_decode_ldVxDt : decodeWord 0b1111001000000111#16 = .ok (.ldVxDt 2) := by decide
theorem test_decode_ldVxK : decodeWord 0b1111001100001010#16 = .ok (.ldVxK 3) := by decide
theorem test_decode_ldDtVx : decodeWord 0b1111000000010101#16 = .ok (.ldDtVx 0) := by decide
theorem test_decode_ldStVx : decodeWord 0b1111000100011000#16 = .ok (.ldStVx 1) := by decide
theorem test_decode_addIVx : decodeWord 0b1111000000011110#16 = .ok (.addIVx 0) := by decide
theorem test_decode_ldFVx : decodeWord 0b1111000100101001#16 = .ok (.ldFVx 1) := by decide
theorem test_decode_ldBVx : decodeWord 0b1111000000110011#16 = .ok (.ldBVx 0) := by decide
theorem test_decode_ldMemVx : decodeWord 0b1111001001010101#16 = .ok (.ldMemVx 2) := by decide
theorem test_decode_ldVxMem : decodeWord 0b1111001001100101#16 = .ok (.ldVxMem 2) := by decide

/-- Words of the no-op space (R80; vectors S9, CYC5, CYC8, KEY7). -/
theorem test_decode_0000 : decodeWord 0x0000#16 = .error .unrecognized := by decide
theorem test_decode_0123 : decodeWord 0x0123#16 = .error .unrecognized := by decide
theorem test_decode_8128 : decodeWord 0x8128#16 = .error .unrecognized := by decide
theorem test_decode_E5A0 : decodeWord 0xE5A0#16 = .error .unrecognized := by decide
theorem test_decode_F0FF : decodeWord 0xF0FF#16 = .error .unrecognized := by decide
theorem test_decode_short : decode [0x60#8] = .error .truncated := by decide
theorem test_decode_bytes : decode [0x6A#8, 0x42#8, 0x11#8] = .ok (.ldImm 0xA 0x42, [0x11#8]) := by decide
theorem test_decodeTableWord : decodeTableWord 16 0xF265 = some (.ldVxMem 2) := by decide

/-! ## One step on a small state (spec/95_test_vectors.md) -/

/-- The next state of an outcome. -/
def nextOf : Host.Outcome State Fault Refusal → State
  | .next t => t
  | _ => State.reset

/-- The state `boot` makes. -/
def booted : Except LoadError State → State
  | .ok s => s
  | .error _ => { State.reset with pc := 0#16 }

/-- The state after one step on the word `w` placed at PC. -/
def after (w : Nat) (s : State) : State := nextOf (step (s.withFetchWord 16 w))

/-- Reset with some registers set. -/
def withV (l : List (Nibble × Byte)) (s : State := State.reset) : State := l.foldl (fun t p => t.setV p.1 p.2) s

/-- Reset with I and some bytes at it. -/
def withMem (i : Word) (bs : List Byte) (s : State := State.reset) : State := (s.setI i).storeBytes i.toNat bs

/-- DSP1. -/
theorem test_cls : (let t := after 0x00E0 (State.reset |> fun s => { s with fb := s.fb.toggle 63 31 })
    t.pixel 63 31 = false ∧ t.pc = 0x202#16) := by decide

/-- CTL1. -/
theorem test_ret : (let t := after 0x00EE ({ State.reset with sp := 1, stack := State.reset.stack.set 0 0x206#16 })
    t.sp = 0 ∧ t.pc = 0x206#16) := by decide

/-- CTL2. -/
theorem test_ret_empty : (let t := after 0x05EE (State.reset)
    t.runState = .faulted ∧ t.fault = ⟨some .stackUnderflow, 0x200, 0x05EE, 0⟩ ∧ t.pc = 0x202#16) := by decide

/-- CTL3. -/
theorem test_jp : (let t := after 0x1234 (State.reset)
    t.pc = 0x234#16) := by decide

/-- CTL5. -/
theorem test_call : (let t := after 0x2300 (State.reset.setPc 0x204)
    t.sp = 1 ∧ t.stack[0] = 0x206#16 ∧ t.pc = 0x300#16) := by decide

/-- CTL6. -/
theorem test_call_full : (let t := after 0x2300 ({ State.reset with sp := 12 })
    t.fault = ⟨some .stackOverflow, 0x200, 0x2300, 0⟩ ∧ t.pc = 0x202#16 ∧ t.sp = 12) := by decide

/-- CTL8. -/
theorem test_jpV0 : (let t := after 0xB300 (withV [(0, 0x10)])
    t.pc = 0x310#16) := by decide

/-- CTL9. -/
theorem test_jpV0_unmasked : (let t := after 0xBFFF (withV [(0, 0xFF)])
    t.pc = 0x10FE#16) := by decide

/-- SKP1. -/
theorem test_seImm : (let t := after 0x3342 (withV [(3, 0x42)])
    t.pc = 0x204#16) := by decide

/-- SKP2. -/
theorem test_seImm_not : (let t := after 0x3342 (withV [(3, 0x41)])
    t.pc = 0x202#16) := by decide

/-- SKP4. -/
theorem test_sneImm : (let t := after 0x4000 (withV [(0, 5)])
    t.pc = 0x204#16) := by decide

/-- SKP5. -/
theorem test_sneImm_not : (let t := after 0x4000 (State.reset)
    t.pc = 0x202#16) := by decide

/-- SKP7. -/
theorem test_seReg : (let t := after 0x5121 (withV [(1, 7), (2, 7)])
    t.pc = 0x204#16) := by decide

/-- SKP9. -/
theorem test_seReg_not : (let t := after 0x5120 (withV [(1, 7), (2, 8)])
    t.pc = 0x202#16) := by decide

/-- SKP10. -/
theorem test_sneReg : (let t := after 0x9120 (withV [(1, 7), (2, 8)])
    t.pc = 0x204#16) := by decide

/-- SKP12. -/
theorem test_sneReg_not : (let t := after 0x9121 (withV [(1, 7), (2, 7)])
    t.pc = 0x202#16) := by decide

/-- S1. -/
theorem test_ldImm : (let t := after 0x6A42 (State.reset)
    t.getV 0xA = 0x42#8 ∧ t.pc = 0x202#16) := by decide

/-- S2. -/
theorem test_addImm : (let t := after 0x7220 (withV [(2, 0xF0)])
    t.getV 2 = 0x10#8 ∧ t.getV 0xF = 0#8) := by decide

/-- ALU5. -/
theorem test_addImm_vf : (let t := after 0x7F01 (withV [(0xF, 0xFF)])
    t.getV 0xF = 0#8) := by decide

/-- ALU6. -/
theorem test_ldReg : (let t := after 0x8010 (withV [(1, 0x33)])
    t.getV 0 = 0x33#8) := by decide

/-- ALU7. -/
theorem test_or : (let t := after 0x8011 (withV [(0, 0x0F), (1, 0xF0), (0xF, 0x55)])
    t.getV 0 = 0xFF#8 ∧ t.getV 0xF = 0x55#8) := by decide

/-- ALU8. -/
theorem test_and : (let t := after 0x8012 (withV [(0, 0x3C), (1, 0x0F)])
    t.getV 0 = 0x0C#8) := by decide

/-- ALU9. -/
theorem test_xor : (let t := after 0x8013 (withV [(0, 0xFF), (1, 0x0F)])
    t.getV 0 = 0xF0#8) := by decide

/-- S3. -/
theorem test_addReg : (let t := after 0x8014 (withV [(0, 250), (1, 10)])
    t.getV 0 = 4#8 ∧ t.getV 0xF = 1#8) := by decide

/-- ALU14. -/
theorem test_addReg_vf : (let t := after 0x8F14 (withV [(0xF, 0xF0), (1, 0x20)])
    t.getV 0xF = 0x10#8) := by decide

/-- S4. -/
theorem test_sub : (let t := after 0x8015 (withV [(0, 5), (1, 10)])
    t.getV 0 = 251#8 ∧ t.getV 0xF = 0#8) := by decide

/-- ALU16. -/
theorem test_sub_equal : (let t := after 0x8015 (withV [(0, 7), (1, 7)])
    t.getV 0 = 0#8 ∧ t.getV 0xF = 1#8) := by decide

/-- ALU20. -/
theorem test_shr : (let t := after 0x8456 (withV [(4, 5), (5, 0xFF)])
    t.getV 4 = 2#8 ∧ t.getV 0xF = 1#8 ∧ t.getV 5 = 0xFF#8) := by decide

/-- ALU22. -/
theorem test_shr_vf : (let t := after 0x8F06 (withV [(0xF, 2)])
    t.getV 0xF = 1#8) := by decide

/-- ALU23. -/
theorem test_subn : (let t := after 0x8017 (withV [(0, 10), (1, 5)])
    t.getV 0 = 0xFB#8 ∧ t.getV 0xF = 0#8) := by decide

/-- ALU25. -/
theorem test_subn_vf : (let t := after 0x8F17 (withV [(0xF, 5), (1, 3)])
    t.getV 0xF = 0xFE#8) := by decide

/-- ALU27. -/
theorem test_shl : (let t := after 0x820E (withV [(2, 0x81)])
    t.getV 2 = 2#8 ∧ t.getV 0xF = 1#8) := by decide

/-- ALU29. -/
theorem test_shl_vf : (let t := after 0x8FFE (withV [(0xF, 0x81)])
    t.getV 0xF = 2#8) := by decide

/-- ALU31. -/
theorem test_rnd : (let t := after 0xC30F ({ State.reset with rnd := [0xA7#8, 0x11#8] })
    t.getV 3 = 7#8 ∧ t.rnd = [0x11#8]) := by decide

/-- ALU32. -/
theorem test_rnd_mask_zero : (let t := after 0xC000 ({ State.reset with rnd := [0xFF#8] })
    t.getV 0 = 0#8 ∧ t.rnd = [] ∧ t.draws = 1) := by decide

/-- MEM1. -/
theorem test_ldI : (let t := after 0xA2F0 (State.reset)
    t.i = 0x2F0#16) := by decide

/-- MEM2. -/
theorem test_addIVx : (let t := after 0xF01E ((withV [(0, 0x10), (0xF, 0x77)]).setI 0x0FFA)
    t.i = 0x100A#16 ∧ t.getV 0xF = 0x77#8) := by decide

/-- MEM3. -/
theorem test_addIVx_wrap : (let t := after 0xF01E ((withV [(0, 1)]).setI 0xFFFF)
    t.i = 0#16) := by decide

/-- MEM5. -/
theorem test_ldFVx : (let t := after 0xF129 (withV [(1, 0x0A)])
    t.i = 0x32#16) := by decide

/-- MEM7. -/
theorem test_ldFVx_large : (let t := after 0xF129 (withV [(1, 0xFF)])
    t.i = 0x4FB#16) := by decide

/-- S6. -/
theorem test_ldBVx : (let t := after 0xF033 ((withV [(0, 234)]).setI 0x300)
    t.loadBytes 0x300 3 = [2#8, 3#8, 4#8] ∧ t.i = 0x300#16) := by decide

/-- MEM11. -/
theorem test_ldBVx_top : (let t := after 0xF033 ((withV [(0, 123)]).setI 0xFFE)
    t.fault = ⟨some .writeBounds, 0x200, 0xF033, 0x1000⟩ ∧ t.loadBytes 0xFFE 2 = [0#8, 0#8]) := by decide

/-- MEM13. -/
theorem test_ldMemVx : (let t := after 0xF255 ((withV [(0, 0x11), (1, 0x22), (2, 0x33), (3, 0x44)]).setI 0x300)
    t.loadBytes 0x300 4 = [0x11#8, 0x22#8, 0x33#8, 0#8] ∧ t.i = 0x300#16) := by decide

/-- MEM16. -/
theorem test_ldMemVx_top : (let t := after 0xFF55 ((withV [(0, 1)]).setI 0xFF1)
    t.fault = ⟨some .writeBounds, 0x200, 0xFF55, 0x1000⟩ ∧ t.byteAt 0xFF1 = 0#8) := by decide

/-- MEM17. -/
theorem test_ldVxMem : (let t := after 0xF265 (withMem 0x300 [2, 3, 4, 5])
    t.getV 0 = 2#8 ∧ t.getV 1 = 3#8 ∧ t.getV 2 = 4#8 ∧ t.getV 3 = 0#8) := by decide

/-- MEM20. -/
theorem test_ldVxMem_top : (let t := after 0xF165 ((withV [(0, 9)]).setI 0xFFF)
    t.fault = ⟨some .readBounds, 0x200, 0xF165, 0x1000⟩ ∧ t.getV 0 = 9#8) := by decide

/-- DSP2. -/
theorem test_drw_glyph : (let t := after 0xD015 (State.reset)
    (List.finRange 64).all (fun x => (List.finRange 6).all fun y => t.pixel x (y.castLE (by decide)) == ([(0,0),(1,0),(2,0),(3,0),(0,1),(3,1),(0,2),(3,2),(0,3),(3,3),(0,4),(1,4),(2,4),(3,4)].contains (x.val, y.val))) = true ∧ t.getV 0xF = 0#8) := by decide

/-- DSP4. -/
theorem test_drw_clip_rows : (let t := after 0xD015 (withMem 0xFFE [0x80, 0x40] (withV [(1, 30)]))
    t.pixel 0 30 = true ∧ t.pixel 1 31 = true ∧ t.pixel 0 0 = false ∧ t.runState = .running) := by decide

/-- DSP5. -/
theorem test_drw_out_of_range : (let t := after 0xD015 (withMem 0xFFE [0x80, 0x40] (withV [(0xF, 0x33)]))
    t.fault = ⟨some .readBounds, 0x200, 0xD015, 0x1000⟩ ∧ t.getV 0xF = 0x33#8 ∧ t.pixel 0 0 = false) := by decide

/-- S10. -/
theorem test_drw_clip_columns : (let t := after 0xD011 (withMem 0x300 [0xFF] (withV [(0, 60)]))
    t.pixel 60 0 = true ∧ t.pixel 63 0 = true ∧ t.pixel 0 0 = false ∧ t.pixel 59 0 = false) := by decide

/-- DSP9. -/
theorem test_drw_collision : (let t := after 0xD011 (withMem 0x300 [0x80] |> fun s => { s with fb := (s.fb.toggle 0 0).toggle 1 0 })
    t.pixel 0 0 = false ∧ t.pixel 1 0 = true ∧ t.getV 0xF = 1#8) := by decide

/-- DSP7. -/
theorem test_drw_vf_coordinate : (let t := after 0xD0F1 (withMem 0x300 [0x80] (withV [(0xF, 8)]))
    t.pixel 0 8 = true ∧ t.pixel 0 0 = false ∧ t.getV 0xF = 0#8) := by decide

/-- R176 with QUIRK_DRAW_CLIP = false and QUIRK_VF_RESET = false. -/
theorem test_drw_wrap : (let t := after 0xD012 (withMem 0x300 [0xFF, 0x80] (withV [(0, 60), (1, 31), (0xF, 9)]) |> fun s => { s with cfg := ⟨500, false, false⟩ })
    t.pixel 63 31 = true ∧ t.pixel 3 31 = true ∧ t.pixel 4 31 = false ∧ t.pixel 60 0 = true ∧ t.getV 0xF = 9#8) := by decide

/-- KEY1. -/
theorem test_skp : (let t := after 0xE59E (withV [(5, 0xA)] |> fun s => { s with keys := s.keys.set 0xA true })
    t.pc = 0x204#16) := by decide

/-- KEY5. -/
theorem test_skp_range : (let t := after 0xE59E (withV [(5, 0x10)])
    t.fault = ⟨some .keyRange, 0x200, 0xE59E, 0x10⟩ ∧ t.pc = 0x202#16) := by decide

/-- KEY3. -/
theorem test_sknp : (let t := after 0xE5A1 (withV [(5, 0xA)])
    t.pc = 0x204#16) := by decide

/-- KEY4. -/
theorem test_sknp_pressed : (let t := after 0xE5A1 (withV [(5, 0xA)] |> fun s => { s with keys := s.keys.set 0xA true })
    t.pc = 0x202#16) := by decide

/-- KEY8. -/
theorem test_ldVxK_wait : (let t := after 0xF30A (withV [(3, 0x55)])
    t.pc = 0x200#16 ∧ t.getV 3 = 0x55#8) := by decide

/-- KEY9. -/
theorem test_ldVxK : (let t := after 0xF30A ({ State.reset with keys := (State.reset.keys.set 3 true).set 9 true })
    t.pc = 0x202#16 ∧ t.getV 3 = 3#8) := by decide

/-- KEY12. -/
theorem test_ldVxDt : (let t := after 0xF207 (State.reset.setDt 0x3C)
    t.getV 2 = 0x3C#8) := by decide

/-- KEY13. -/
theorem test_ldDtVx : (let t := after 0xF015 (withV [(0, 3)])
    t.dt = 3#8) := by decide

/-- R197 example. -/
theorem test_ldStVx : (let t := after 0xF118 (withV [(1, 2)])
    t.st = 2#8 ∧ t.soundActive = true) := by decide

/-- S9. -/
theorem test_no_op : (let t := after 0x8128 (withV [(1, 1), (2, 2)])
    t.pc = 0x202#16 ∧ t.getV 1 = 1#8 ∧ t.getV 2 = 2#8) := by decide

/-! ## The cycle and the controller -/

/-- CYC1: 0xFFE is the last fetchable address. -/
theorem test_fetch_top : (let t := after 0x6007 (State.reset.setPc 0xFFE)
    t.getV 0 = 7#8 ∧ t.pc = 0x1000#16) := by decide

/-- CYC4: an odd PC fetches its two bytes. -/
theorem test_fetch_odd : (let t := after 0x6A42 (State.reset.setPc 0x201)
    t.getV 0xA = 0x42#8 ∧ t.pc = 0x203#16) := by decide

/-- CYC2 and CYC3. -/
theorem test_fetch_fault_0FFF : (State.reset.setPc 0xFFF).fetchFault.fault = ⟨some .fetchBounds, 0xFFF, 0, 0x1000⟩ := by decide
theorem test_fetch_fault_step : (let t := nextOf (instructionStep (State.reset.setPc 0x10FE))
    t.runState = .faulted ∧ t.fault = ⟨some .fetchBounds, 0x10FE, 0, 0x10FE⟩ ∧ t.pc = 0x10FE#16) := by decide

/-- S8: a timer at 0 stays at 0. -/
theorem test_tick : (tickByte 3 = 2#8) ∧ (tickByte 1 = 0#8) ∧ (tickByte 0 = 0#8) := by decide

/-- KEY16: with IPS = 59 a frame runs no step and ticks. -/
theorem test_frame_ips_59 : (let t := nextOf (step { State.reset with cfg := ⟨59, true, true⟩, dt := 2 })
    t.pc = 0x200#16 ∧ t.dt = 1#8) := by decide

/-- KEY18: while Paused a frame changes nothing. -/
theorem test_frame_paused : (let t := nextOf (frame State.reset.keys { State.reset with runState := .paused, dt := 4 })
    t.dt = 4#8 ∧ t.pc = 0x200#16) := by decide

/-- R233: the listed key state is latched where a frame opens; R234: a pause between frames stops the machine. -/
theorem test_latch : (let t := nextOf (step { State.reset with host := [⟨.none, State.reset.keys.set 7 true⟩] })
    t.keys[7] = true ∧ t.frameLeft = 7 ∧ t.pc = 0x202#16) := by decide
theorem test_pause : (let t := nextOf (step { State.reset with host := [⟨.pause, State.reset.keys⟩], dt := 5 })
    t.runState = .paused ∧ t.pc = 0x200#16 ∧ t.dt = 5#8) := by decide

/-- The tick follows the last step of a frame (R230), and a faulted frame does not tick (KEY15). -/
theorem test_last_step_ticks : (let t := nextOf (step { State.reset with frameLeft := 1, dt := 4 })
    t.dt = 3#8 ∧ t.frameLeft = 0) := by decide
theorem test_faulted_frame_no_tick :
    (after 0x00EE { State.reset with frameLeft := 1, dt := 5 }).dt = 5#8 := by decide

/-- R251: a ROM of 3585 bytes is the load error; R250: with the standard FONT and no ROM, boot is reset. -/
theorem test_boot_too_large (rom : List Byte) (h : rom.length = 3585) :
    boot .standard standardFontVector rom = .error .romTooLarge := by simp [boot, h]
theorem test_boot_rom : (let s := booted (boot .standard standardFontVector [0x60#8, 0xFA#8])
    s.byteAt 0x201 = 0xFA#8 ∧ s.byteAt 0x4F = 0x80#8 ∧ s.byteAt 0x202 = 0#8) := by decide
theorem test_boot_empty : (let s := booted (boot .standard standardFontVector [])
    s.mem = []) := by decide


/-! ## Witnesses: for every statement with hypotheses, concrete states and operands that meet them together, one for each
clause, at the boundary of its range -/

section Witnesses

open Sys2Proof.Claim

/-- `F30A`, FX0A with X = 3, at 0x200. -/
def waiting : State := withMem 0x200 [0xF3, 0x0A]

/-- V0 = 0x11 and V1 = 0x22, with I where FX55 with X = 1 ends at 0x0FFF. -/
def storing : State := (withV [(0, 0x11), (1, 0x22)]).setI 0xFFE

/-- A Paused machine whose host quits at its next turn. -/
def heldByQuit : State := { State.reset with runState := .paused, host := [⟨.quit, State.reset.keys⟩] }

theorem witness_EncodeOfDecodeGivesBackWord : decodeWord 0x8F15 = .ok (.sub 0xF 1) := by decide

theorem witness_AssembledLine_fits : (let o : Operands := ⟨15, 15, 15, 255, 4095⟩
    o.x < 16 ∧ o.y < 16 ∧ o.n < 16 ∧ o.nn < 256 ∧ o.nnn < 4096) := by decide
theorem witness_AssembledLine_refused : (let o : Operands := ⟨0, 0, 0, 256, 0⟩
    ¬ (o.x < 16 ∧ o.y < 16 ∧ o.n < 16 ∧ o.nn < 256 ∧ o.nnn < 4096)) := by decide

theorem witness_StepRuns_inFrame : (let s := { waiting with frameLeft := 1, pc := 0x200 }
    s.midFrame = true ∧ s.enterFrame.midFrame = true ∧ s.enterFrame.pc.toNat ≤ 0x0FFE ∧
    decodeWord s.enterFrame.fetchWord = .ok (.ldVxK 3)) := by decide
theorem witness_StepRuns_atBoundary : (let s := { waiting with host := [⟨.none, State.reset.keys⟩] }
    s.midFrame = false ∧ s.enterFrame.midFrame = true ∧ s.enterFrame.pc.toNat ≤ 0x0FFE ∧
    decodeWord s.enterFrame.fetchWord = .ok (.ldVxK 3)) := by decide

theorem witness_PcIsAdvanced_decoded : (let s := (withMem 0xFFE [0xF3, 0x0A]).setPc 0xFFE
    s.pc.toNat ≤ 0x0FFE ∧ decodeWord s.fetchWord = .ok (.ldVxK 3)) := by decide
theorem witness_UnrecognizedWord : (State.reset.setPc 0xFFE).pc.toNat ≤ 0x0FFE ∧
    decodeWord (State.reset.setPc 0xFFE).fetchWord = .error .unrecognized := by decide
theorem witness_FetchFaults : 0x0FFE < (State.reset.setPc 0xFFF).pc.toNat := by decide
theorem witness_PlacedWord : State.reset.mem.wf = true ∧ 65535 < 65536 := by decide

theorem witness_Call_room : { State.reset with sp := 11 }.sp.val < 12 := by decide
theorem witness_Call_full : { State.reset with sp := 12 }.sp.val = 12 := by decide
theorem witness_Return_entry : { State.reset with sp := 12 }.sp.val = (11 : Fin 12).val + 1 := by decide
theorem witness_Return_empty : State.reset.sp.val = 0 := by decide
theorem witness_CallThenReturn : (let t := nextOf (exec (.call 0x300) State.reset)
    State.reset.sp.val < 12 ∧ exec (.call 0x300) State.reset = .next t ∧ t.stack = t.stack ∧ t.sp = t.sp) :=
  ⟨by decide, rfl, rfl, rfl⟩

theorem witness_ImmediateSkips_equal : ((withV [(3, 0xFF)]).getV 3).toNat = (0xFF#8).toNat := by decide
theorem witness_ImmediateSkips_different : ((withV [(3, 0xFF)]).getV 3).toNat ≠ (0#8).toNat := by decide
theorem witness_RegisterSkips_equal : (State.reset.getV 1).toNat = (State.reset.getV 2).toNat := by decide
theorem witness_RegisterSkips_different : ((withV [(1, 0xFF)]).getV 1).toNat ≠ ((withV [(1, 0xFF)]).getV 2).toNat := by
  decide

/-- The flag of 8XY4 to 8XYE for a destination other than VF, set and clear at the edge of its condition. -/
theorem witness_Flag_add : (0#4 ≠ 0xF#4) ∧ 255 < (255#8).toNat + (1#8).toNat ∧ ¬ 255 < (254#8).toNat + (1#8).toNat := by
  decide
theorem witness_Flag_sub : (7#8).toNat ≤ (7#8).toNat ∧ ¬ (7#8).toNat ≤ (6#8).toNat := by decide
theorem witness_Flag_shift : (1#8).toNat % 2 = 1 ∧ ¬ (2#8).toNat % 2 = 1 ∧ 128 ≤ (128#8).toNat ∧ ¬ 128 ≤ (127#8).toNat := by
  decide
theorem witness_RandomByte_injected : { State.reset with rnd := [0xA7#8] }.rnd = 0xA7#8 :: [] := by decide

theorem witness_DecimalDigits : (State.reset.setI 0xFFD).mem.wf = true ∧ (State.reset.setI 0xFFD).i.toNat + 2 ≤ 0x0FFF := by
  decide
theorem witness_RegistersStored : (State.reset.setI 0xFF0).mem.wf = true ∧
    (State.reset.setI 0xFF0).i.toNat + (0xF#4).toNat ≤ 0x0FFF := by decide
theorem witness_RegistersLoaded : (State.reset.setI 0xFFF).i.toNat + (0#4).toNat ≤ 0x0FFF := by decide
theorem witness_StoredRegistersLoadBack : (let t := nextOf (exec (.ldMemVx 1) storing)
    storing.mem.wf = true ∧ storing.i.toNat + (1#4).toNat ≤ 0x0FFF ∧ exec (.ldMemVx 1) storing = .next t ∧
    { t with v := State.reset.v }.mem = t.mem ∧ { t with v := State.reset.v }.i = storing.i) :=
  ⟨by decide, by decide, rfl, rfl, by decide⟩
theorem witness_StoredBytesAreFetched : (let t := nextOf (exec (.ldMemVx 1) storing)
    storing.mem.wf = true ∧ storing.i.toNat + (1#4).toNat ≤ 0x0FFF ∧ exec (.ldMemVx 1) storing = .next t ∧
    (1#4).toNat = (0#4).toNat + 1 ∧ (1#4).toNat ≤ (1#4).toNat ∧ (t.setPc 0xFFE).mem = t.mem ∧
    (t.setPc 0xFFE).pc.toNat = storing.i.toNat + (0#4).toNat) :=
  ⟨by decide, by decide, rfl, by decide, by decide, rfl, by decide⟩

/-- One drawn row at 0x0FFF, rows clipped away above it, and N = 0 with I out of range: none of them faults. -/
theorem witness_Draw_inRange : faultCause (.drw 0 1 5) ((withV [(1, 31)]).setI 0xFFF) = none ∧
    faultCause (.drw 0 1 0) (State.reset.setI 0xFFFF) = none := by decide
theorem witness_Draw_collides : (let s := { withMem 0x300 [0x80] with fb := State.reset.fb.toggle 0 0 }
    faultCause (.drw 0 1 1) s = none ∧ s.pixel 0 0 = true ∧ spriteBit s 0 1 1 0 0 = true) := by decide
theorem witness_Draw_noCollision : faultCause (.drw 0 1 1) (withMem 0x300 [0x80]) = none ∧
    ∀ (c : Fin 64) (r : Fin 32), ¬ ((withMem 0x300 [0x80]).pixel c r = true ∧
      spriteBit (withMem 0x300 [0x80]) 0 1 1 c.val r.val = true) :=
  ⟨by decide, fun c r h => by
    have hp : (withMem 0x300 [0x80]).pixel c r = false := Framebuffer.pixel_clear c r
    rw [hp] at h; exact Bool.noConfusion h.1⟩
theorem witness_DrawingTwice : (let t := nextOf (exec (.drw 0 1 1) (withMem 0x300 [0x80]))
    (0#4 ≠ 0xF#4) ∧ (1#4 ≠ 0xF#4) ∧ faultCause (.drw 0 1 1) (withMem 0x300 [0x80]) = none ∧
    exec (.drw 0 1 1) (withMem 0x300 [0x80]) = .next t ∧ exec (.drw 0 1 1) t = .next (nextOf (exec (.drw 0 1 1) t)) ∧
    (withMem 0x300 [0x80]).pixel 0 0 = false ∧ t.pixel 0 0 = true) :=
  ⟨by decide, by decide, by decide, rfl, rfl, by decide, by decide⟩

theorem witness_KeySkips_pressed : (let s := { withV [(5, 0xF)] with keys := State.reset.keys.set 15 true }
    (s.getV 5).toNat = (15 : Fin 16).val ∧ s.keys[(15 : Fin 16)] = true) := by decide
theorem witness_KeySkips_released : (State.reset.getV 5).toNat = (0 : Fin 16).val ∧
    State.reset.keys[(0 : Fin 16)] = false := by decide
theorem witness_KeySkips_outOfRange : 0x0F < ((withV [(5, 0x10)]).getV 5).toNat := by decide
theorem witness_KeyWait_pressed : (let s := { State.reset with keys := State.reset.keys.set 15 true }
    s.keys[(15 : Fin 16)] = true ∧ ∀ j : Fin 16, j < 15 → s.keys[j] = false) := by decide
theorem witness_KeyWait_released : ∀ k : Fin 16, State.reset.keys[k] = false := by decide
theorem witness_WaitingFrame : waiting.runState = .running ∧ waiting.pc.toNat ≤ 0x0FFE ∧
    decodeWord waiting.fetchWord = .ok (.ldVxK 3) ∧ ∀ k : Fin 16, State.reset.keys[k] = false := by decide

theorem witness_RegistersChange : exec (.addReg 0 1) State.reset = .next (nextOf (exec (.addReg 0 1) State.reset)) ∧
    ¬ writesV (.addReg 0 1) 2#4 := ⟨rfl, by simp [writesV]⟩
theorem witness_MemoryChanges : State.reset.mem.wf = true ∧
    exec (.ldBVx 0) State.reset = .next (nextOf (exec (.ldBVx 0) State.reset)) ∧ ¬ storesTo (.ldBVx 0) State.reset 3 :=
  ⟨by decide, rfl, by simp [storesTo, State.ea, State.reset]⟩
theorem witness_IndexChanges : exec (.ldI 0x2F0) State.reset = .next (State.reset.setI 0x2F0) ∧
    (State.reset.setI 0x2F0).i ≠ State.reset.i := ⟨rfl, by decide⟩
theorem witness_OtherState : (let t := nextOf (exec (.call 0x300) State.reset)
    exec (.call 0x300) State.reset = .next t ∧ t.pc ≠ State.reset.pc ∧ t.sp ≠ State.reset.sp) :=
  ⟨rfl, by decide, by decide⟩

/-- Each row of the fault table at the edge of its condition, and the last operand that does not fault. -/
theorem witness_Faults_stack : faultCause (.ret 0) State.reset = some (.stackUnderflow, 0) ∧
    faultCause (.ret 0) { State.reset with sp := 1 } = none ∧
    faultCause (.call 0) { State.reset with sp := 12 } = some (.stackOverflow, 0) ∧
    faultCause (.call 0) { State.reset with sp := 11 } = none := by decide
theorem witness_Faults_key : faultCause (.skp 5) (withV [(5, 0x10)]) = some (.keyRange, 0x10) ∧
    faultCause (.sknp 5) (withV [(5, 0x0F)]) = none := by decide
theorem witness_Faults_store : faultCause (.ldBVx 0) (State.reset.setI 0xFFE) = some (.writeBounds, 0x1000) ∧
    faultCause (.ldBVx 0) (State.reset.setI 0xFFD) = none ∧
    faultCause (.ldMemVx 1) (State.reset.setI 0xFFF) = some (.writeBounds, 0x1000) ∧
    faultCause (.ldMemVx 1) (State.reset.setI 0xFFE) = none := by decide
theorem witness_Faults_load : faultCause (.ldVxMem 0) (State.reset.setI 0x1234) = some (.readBounds, 0x1234) ∧
    faultCause (.ldVxMem 0) (State.reset.setI 0xFFF) = none ∧
    faultCause (.drw 0 1 2) (State.reset.setI 0xFFF) = some (.readBounds, 0x1000) := by decide
theorem witness_Faults_exec : exec (.skp 5) (withV [(5, 0x10)]) =
    .next (nextOf (exec (.skp 5) (withV [(5, 0x10)]))) := rfl

theorem witness_RunState_inFrame : (let s := { State.reset with frameLeft := 1 }
    step s = .next (nextOf (step s)) ∧ s.midFrame = true) := ⟨rfl, by decide⟩
theorem witness_RunState_faults : (let s := { State.reset with frameLeft := 1, pc := 0xFFF }
    step s = .next (nextOf (step s)) ∧ (nextOf (step s)).runState = .faulted ∧ s.runState ≠ .faulted) :=
  ⟨rfl, by decide, by decide⟩
theorem witness_RunState_atBoundary : step heldByQuit = .next (nextOf (step heldByQuit)) ∧
    heldByQuit.midFrame = false := ⟨rfl, by decide⟩
theorem witness_Held : applyCommand heldByQuit.nextTurn.cmd heldByQuit.runState ≠ .running ∧
    heldByQuit.runState ≠ .running := by decide
theorem witness_Keys_opens : (let s := { State.reset with host := [⟨.none, State.reset.keys.set 7 true⟩] }
    step s = .next (nextOf (step s)) ∧ s.midFrame = false ∧
    applyCommand s.nextTurn.cmd s.runState = .running) := ⟨rfl, by decide, by decide⟩
theorem witness_Keys_held : step heldByQuit = .next (nextOf (step heldByQuit)) ∧ heldByQuit.midFrame = false ∧
    applyCommand heldByQuit.nextTurn.cmd heldByQuit.runState ≠ .running := ⟨rfl, by decide, by decide⟩
theorem witness_Timers_last : (let s := { State.reset with frameLeft := 1 }
    s.midFrame = true ∧ instructionStep s = .next s.advance ∧ step s = .next (nextOf (step s)) ∧
    s.frameLeft = 1 ∧ s.advance.runState ≠ .faulted) :=
  ⟨by decide, rfl, rfl, by decide, by decide⟩
theorem witness_Timers_notLast : (let s := { State.reset with frameLeft := 2 }
    s.midFrame = true ∧ instructionStep s = .next s.advance ∧ step s = .next (nextOf (step s)) ∧
    ¬ (s.frameLeft = 1 ∧ s.advance.runState ≠ .faulted)) :=
  ⟨by decide, rfl, rfl, by decide⟩
theorem witness_StepsOfFrame : State.reset.frameLeft = 0 := by decide

theorem witness_Rom_tooLarge : 4096 - 0x200 < (List.replicate 3585 (0#8 : Byte)).length :=
  Nat.lt_of_lt_of_eq (by decide) List.length_replicate.symm
theorem witness_Rom_fits : (List.replicate 3584 (0#8 : Byte)).length ≤ 4096 - 0x200 :=
  Nat.le_of_eq List.length_replicate
theorem witness_Boot : boot .standard standardFontVector [0x60#8, 0xFA#8] =
    .ok (booted (boot .standard standardFontVector [0x60#8, 0xFA#8])) := rfl
theorem witness_InvariantStep : (let s := { State.reset with host := [⟨.none, State.reset.keys⟩] }
    s.Inv ∧ step s = .next (nextOf (step s))) :=
  ⟨⟨rfl, by decide, fun _ => rfl, by decide, by decide, by decide, by decide⟩, rfl⟩

end Witnesses

end Sys2Proof.Tests
end

section
/-! PROOF. Reset and ROM load (spec/70_reset_and_hazards.md R250, R251): what `boot` answers, by the length of the ROM. -/

namespace Sys2Proof.Machine

/-- R251: the ROM is refused, and no part of it is loaded. -/
theorem boot_of_romTooLarge {cfg : Config} {font : Vector Byte 80} {rom : List Byte} (h : 3584 < rom.length) :
    boot cfg font rom = .error .romTooLarge :=
  if_pos h

/-- R250: the reset state with the configuration and the memory that FONT and the ROM fill. -/
theorem boot_of_romFits {cfg : Config} {font : Vector Byte 80} {rom : List Byte} (h : rom.length ≤ 3584) :
    boot cfg font rom = .ok { State.reset with cfg := cfg, mem := bootMemory font rom } :=
  if_neg (Nat.not_lt.mpr h)

/-- Settles O56: `boot` compares the length with 3584, which is the spec's `4096 - 0x200` (R61), and either answer is
that comparison's branch. -/
theorem oversizedRomIsLoadError : Obligations.OversizedRomIsLoadError := by
  intro cfg font rom
  have romMax : 4096 - 0x200 = 3584 := rfl
  rw [romMax]
  constructor
  · exact boot_of_romTooLarge
  · intro fits
    exact ⟨_, boot_of_romFits fits⟩

end Sys2Proof.Machine
end

section
/-! PROOF. The decoder's fields (spec/30_encoding.md R71): a bit field of the word is the word shifted down to the field's
lowest bit and masked to its width. -/

namespace Sys2Proof

/-- R71's `(opcode>>k) & mask`: dividing by `2 ^ k` is the shift, and the remainder by `2 ^ n` is the mask of `n` ones. -/
theorem setWidth_eq_shift_and_mask {n k : Nat} {field : BitVec n} {w : Word} (hn : n ≤ 16)
    (h : field.toNat = w.toNat / 2 ^ k % 2 ^ n) :
    field.setWidth 16 = (w >>> k) &&& BitVec.ofNat 16 (2 ^ n - 1) := by
  have mask_lt : 2 ^ n - 1 < 2 ^ 16 := Nat.sub_one_lt_of_le (Nat.two_pow_pos n) (Nat.pow_le_pow_right Nat.two_pos hn)
  apply BitVec.eq_of_toNat_eq
  calc (field.setWidth 16).toNat
    _ = field.toNat := BitVec.toNat_setWidth_of_le hn
    _ = (w.toNat >>> k) &&& (2 ^ n - 1) := by rw [h, Nat.and_two_pow_sub_one_eq_mod, Nat.shiftRight_eq_div_pow]
    _ = ((w >>> k) &&& BitVec.ofNat 16 (2 ^ n - 1)).toNat := by
      rw [BitVec.toNat_and, BitVec.toNat_ushiftRight, BitVec.toNat_ofNat, Nat.mod_eq_of_lt mask_lt]

/-- A field that starts at bit 0 needs no shift. -/
theorem setWidth_eq_and_mask {n : Nat} {field : BitVec n} {w : Word} (hn : n ≤ 16)
    (h : field.toNat = w.toNat % 2 ^ n) : field.setWidth 16 = w &&& BitVec.ofNat 16 (2 ^ n - 1) := by
  have shifted : field.setWidth 16 = (w >>> 0) &&& BitVec.ofNat 16 (2 ^ n - 1) :=
    setWidth_eq_shift_and_mask hn (by rw [h, Nat.pow_zero, Nat.div_one])
  rwa [BitVec.ushiftRight_zero] at shifted

/-- Settles O4: each field is read as a number (`toNat_fieldX` and the others), which is a shift by the field's lowest bit
and a mask of its width. -/
theorem fieldsAreMasksAndShifts : Obligations.FieldsAreMasksAndShifts := by
  intro w
  refine ⟨?nnn, ?nn, ?n, ?x, ?y, ?family⟩
  case nnn => exact setWidth_eq_and_mask (by decide) (toNat_fieldNNN w)
  case nn => exact setWidth_eq_and_mask (by decide) (toNat_fieldNN w)
  case n => exact setWidth_eq_and_mask (by decide) (toNat_fieldN w)
  case x => exact setWidth_eq_shift_and_mask (by decide) (toNat_fieldX w)
  case y => exact setWidth_eq_shift_and_mask (by decide) (toNat_fieldY w)
  case family => exact setWidth_eq_shift_and_mask (by decide) (toNat_fieldF w)

end Sys2Proof
end

section
/-! PROOF. The advance of PC between fetch and execute (spec/40_cycle.md R92). -/

namespace Sys2Proof.Machine

/-- R92: where a word can be fetched, `A + 2` does not wrap, since `A` is at most 0x0FFE. -/
theorem State.advance_pc_toNat {s : State} (fetchable : s.pc.toNat ≤ 0x0FFE) : s.advance.pc.toNat = s.pc.toNat + 2 := by
  have noWrap : s.pc.toNat + (2#16).toNat < 2 ^ 16 := by
    rw [BitVec.toNat_ofNat]
    omega
  rw [State.advance_pc, BitVec.toNat_add_of_lt noWrap, BitVec.toNat_ofNat]

/-- Settles O8: the state the execute phase starts from is `s.advance`, for a decoded and for an unrecognized word. -/
theorem pcIsAdvancedBeforeExecute : Obligations.PcIsAdvancedBeforeExecute := by
  intro s fetchable
  refine ⟨s.advance, ?pc, ?frame, ?decoded, ?unrecognized⟩
  case pc => exact State.advance_pc_toNat fetchable
  case frame => rfl
  case decoded =>
    intro i word_decodes
    exact instructionStep_decoded fetchable word_decodes
  case unrecognized =>
    intro r word_rejected
    exact instructionStep_unrecognized fetchable word_rejected

end Sys2Proof.Machine
end

section
/-! PROOF. The loads 6XNN and 8XY0 and the immediate add 7XNN (spec/43_alu.md R120, R121, R123): each of them is one write of
VX, so what a reader of VX, PC and VF sees is stated once, of that write. -/

open Sys2Proof.Claim

namespace Sys2Proof

/-- R76: family 6 holds one instruction. -/
theorem decodeWord_packXNN_ldImm (x : Nibble) (nn : Byte) : decodeWord (packXNN 0x6#4 x nn) = .ok (.ldImm x nn) := by
  simp only [decodeWord, fieldF_packXNN, fieldX_packXNN, fieldNN_packXNN]

/-- R76: family 7 holds one instruction. -/
theorem decodeWord_packXNN_addImm (x : Nibble) (nn : Byte) : decodeWord (packXNN 0x7#4 x nn) = .ok (.addImm x nn) := by
  simp only [decodeWord, fieldF_packXNN, fieldX_packXNN, fieldNN_packXNN]

/-- R78: family 8 dispatches on N. -/
theorem decodeWord_packXYN_ldReg (x y : Nibble) : decodeWord (packXYN 0x8#4 x y 0x0#4) = .ok (.ldReg x y) := by
  simp only [decodeWord, decodeFamily8, fieldF_packXYN, fieldN_packXYN, fieldX_packXYN, fieldY_packXYN]

end Sys2Proof

namespace Sys2Proof.Machine

/-- A write of VX leaves VF alone unless X = 0xF (no register is hard-wired, R21). -/
theorem State.getV_vf_setV (s : State) {x : Nibble} (b : Byte) (x_ne_vf : x ≠ vf) : (s.setV x b).getV vf = s.getV vf :=
  State.getV_setV_ne s b x_ne_vf.symm

/-- An instruction whose whole effect is to write `b` to VX: VX reads `b`, and PC and VF are what they were. -/
theorem completes_of_exec_eq_setV {i : Instr} {s : State} {x : Nibble} {b : Byte} (writes : exec i s = .next (s.setV x b)) :
    Completes i s fun t => t.getV x = b ∧ t.pc = s.pc ∧ (x ≠ vf → t.getV vf = s.getV vf) :=
  ⟨s.setV x b, writes, State.getV_setV_same s x b, State.setV_pc s x b, State.getV_vf_setV s b⟩

/-- R120. -/
theorem exec_ldImm (x : Nibble) (nn : Byte) (s : State) : exec (.ldImm x nn) s = .next (s.setV x nn) := rfl

/-- R123. -/
theorem exec_ldReg (x y : Nibble) (s : State) : exec (.ldReg x y) s = .next (s.setV x (s.getV y)) := rfl

/-- R121. -/
theorem exec_addImm (x : Nibble) (nn : Byte) (s : State) :
    exec (.addImm x nn) s = .next (s.setV x (s.getV x + nn)) := rfl

/-- Settles O19: both loads are one write of VX, of NN or of what VY held. -/
theorem loadsWriteVx : Obligations.LoadsWriteVx := by
  intro s x y nn
  refine ⟨?decodesImm, ?decodesReg, ?imm, ?reg⟩
  case decodesImm => exact decodeWord_packXNN_ldImm x nn
  case decodesReg => exact decodeWord_packXYN_ldReg x y
  case imm => exact completes_of_exec_eq_setV (exec_ldImm x nn s)
  case reg => exact completes_of_exec_eq_setV (exec_ldReg x y s)

/-- Settles O20: the add is one write of VX, and a byte's sum wraps at 256. -/
theorem addImmediateWrapsWithoutFlag : Obligations.AddImmediateWrapsWithoutFlag := by
  intro s x nn
  refine ⟨decodeWord_packXNN_addImm x nn, ?_⟩
  obtain ⟨t, runs, vx_sum, pc_kept, vf_kept⟩ := completes_of_exec_eq_setV (exec_addImm x nn s)
  have wraps : (s.getV x + nn).toNat = ((s.getV x).toNat + nn.toNat) % 256 := BitVec.toNat_add _ _
  exact ⟨t, runs, vx_sum ▸ wraps, pc_kept, vf_kept⟩

end Sys2Proof.Machine
end

section
/-! PROOF. The fault table of the execute phase (spec/60_exceptions.md R211): one relation says what it is for an instruction
to follow its row of the table, and each shape of check in the model (none, a stack bound, a key index, a byte range) is
matched with its row once. -/

open Sys2Proof.Claim

namespace Sys2Proof.Machine

@[simp] theorem State.skipIf_runState (s : State) (c : Bool) : (s.skipIf c).runState = s.runState := by
  rw [State.skipIf_eq, State.setPc_runState]

@[simp] theorem State.skipIf_fault (s : State) (c : Bool) : (s.skipIf c).fault = s.fault := by
  rw [State.skipIf_eq, State.setPc_fault]

/-- How many rows the model draws is how many the spec's table counts (R173, R176). -/
theorem drawnRows_eq_rowsDrawn (s : State) (y n : Nibble) :
    drawnRows s.cfg.drawClip (startRow (s.getV y)) n = rowsDrawn s y n := rfl

/-- The check of R173 fails exactly where some row is drawn and the last one's byte is above 0x0FFF. -/
theorem State.spriteInRange_false_iff (s : State) (y n : Nibble) :
    s.spriteInRange y n = false ↔ 0 < rowsDrawn s y n ∧ 0x0FFF < s.i.toNat + rowsDrawn s y n - 1 := by
  simp only [State.spriteInRange, Bool.or_eq_false_iff, decide_eq_false_iff_not, State.inRange_false_iff]
  rw [drawnRows_eq_rowsDrawn]
  omega

/-- The execute phase of `i` at `s` does what the table of R211 says: the fault of its row is raised, and where no row
applies the run state and FAULT are kept. -/
def FollowsFaultTable (i : Instr) (s : State) : Prop :=
  (∀ c a, faultCause i s = some (c, a) → exec i s = .next (s.raise c i a)) ∧
  (faultCause i s = none → Completes i s fun t => t.runState = s.runState ∧ t.fault = s.fault)

/-- An instruction with no row in the table. -/
theorem followsFaultTable_of_noRow {i : Instr} {s : State} (noRow : faultCause i s = none)
    (keeps : Completes i s fun t => t.runState = s.runState ∧ t.fault = s.fault) : FollowsFaultTable i s := by
  refine ⟨fun c a row => ?_, fun _ => keeps⟩
  rw [noRow] at row
  cases row

/-- An instruction with one row in the table, which applies under the condition `bad`. -/
theorem followsFaultTable_of_row {i : Instr} {s : State} {bad : Prop} [Decidable bad] {c : Fault} {a : Word}
    (row : faultCause i s = if bad then some (c, a) else none) (faults : bad → exec i s = .next (s.raise c i a))
    (keeps : ¬ bad → Completes i s fun t => t.runState = s.runState ∧ t.fault = s.fault) : FollowsFaultTable i s := by
  by_cases h : bad
  · rw [if_pos h] at row
    refine ⟨fun c' a' row' => ?_, fun noRow => ?_⟩
    · cases row.symm.trans row'
      exact faults h
    · cases row.symm.trans noRow
  · exact followsFaultTable_of_noRow (row.trans (if_neg h)) (keeps h)

/-- EX9E and EXA1: the key check of R192. -/
theorem followsFaultTable_of_keyCheck {i : Instr} {s : State} {x : Nibble} {skips : Fin 16 → Bool}
    (row : faultCause i s = if 0x0F < (s.getV x).toNat then some (.keyRange, .ofNat 16 (s.getV x).toNat) else none)
    (noKey : keyIndex (s.getV x) = none → exec i s = .next (s.raise .keyRange i (zext16 (s.getV x))))
    (key : ∀ k, keyIndex (s.getV x) = some k → exec i s = .next (s.skipIf (skips k))) : FollowsFaultTable i s := by
  refine followsFaultTable_of_row row (fun above => ?_) (fun notAbove => ?_)
  · rw [BitVec.ofNat_toNat]
    exact noKey (keyIndex_none.mpr above)
  · have isKey : keyIndex (s.getV x) = some ⟨(s.getV x).toNat, by omega⟩ := keyIndex_some.mpr rfl
    exact ⟨_, key _ isKey, State.skipIf_runState _ _, State.skipIf_fault _ _⟩

/-- FX33, FX55, FX65 and DXYN: a range check that comes before any effect (R154, R173). -/
theorem followsFaultTable_of_rangeCheck {i : Instr} {s t : State} {ok : Bool} {bad : Prop} [Decidable bad] {c : Fault}
    (row : faultCause i s = if bad then some (c, .ofNat 16 (max s.i.toNat 0x1000)) else none)
    (arm : exec i s = if ok then .next t else .next (s.raise c i s.lowestOutOfRange)) (check : ok = false ↔ bad)
    (runState_kept : t.runState = s.runState) (fault_kept : t.fault = s.fault) : FollowsFaultTable i s := by
  refine followsFaultTable_of_row row (fun outside => ?_) (fun inside => ?_)
  · rw [arm, check.mpr outside, ← State.lowestOutOfRange_eq]
    rfl
  · have passes : ok = true := Bool.eq_true_of_not_eq_false (mt check.mp inside)
    exact ⟨t, arm.trans (if_pos passes), runState_kept, fault_kept⟩

/-- R100, where the stack holds an entry. -/
theorem exec_ret_of_pop (x : Nibble) {s t : State} {w : Word} (pops : s.popReturn = some (w, t)) :
    exec (.ret x) s = .next (t.setPc w) := by
  simp only [exec, execRet, pops]

/-- R102, where the stack has room. -/
theorem exec_call_of_push (nnn : Addr12) {s t : State} (pushes : s.pushReturn s.pc = some t) :
    exec (.call nnn) s = .next (t.setPc (zext16 nnn)) := by
  simp only [exec, execCall, pushes]

/-- R214. -/
theorem ret_followsFaultTable (x : Nibble) (s : State) : FollowsFaultTable (.ret x) s := by
  refine followsFaultTable_of_row rfl (fun empty => ?_) (fun notEmpty => ?_)
  · simp only [exec, execRet, State.popReturn_empty empty]
  · have pops := State.popReturn_of_pos (s := s) ⟨s.sp.val - 1, by omega⟩ (by dsimp only; omega)
    exact ⟨_, exec_ret_of_pop x pops, rfl, rfl⟩

/-- R213. -/
theorem call_followsFaultTable (nnn : Addr12) (s : State) : FollowsFaultTable (.call nnn) s := by
  refine followsFaultTable_of_row rfl (fun full => ?_) (fun notFull => ?_)
  · simp only [exec, execCall, State.pushReturn_full s.pc full]
  · have pushes := State.pushReturn_of_lt (s := s) s.pc (by omega)
    exact ⟨_, exec_call_of_push nnn pushes, rfl, rfl⟩

/-- FX0A waits without a fault (R193). -/
theorem ldVxK_followsFaultTable (x : Nibble) (s : State) : FollowsFaultTable (.ldVxK x) s := by
  refine followsFaultTable_of_noRow rfl ?_
  cases pressed : lowestKey s.keys with
  | none => exact ⟨s.rewind, by simp only [exec, execLdVxK, pressed], rfl, rfl⟩
  | some k => exact ⟨s.setV x (.ofNat 8 k.val), by simp only [exec, execLdVxK, pressed], rfl, rfl⟩

/-- A conditional skip that reads no key: no row, and only PC is written. -/
theorem followsFaultTable_of_skipIf {i : Instr} {s : State} {c : Bool} (noRow : faultCause i s = none)
    (arm : exec i s = .next (s.skipIf c)) : FollowsFaultTable i s :=
  followsFaultTable_of_noRow noRow ⟨_, arm, State.skipIf_runState s c, State.skipIf_fault s c⟩

/-- Every instruction follows the table; the last line is the instructions that have no row and no branch. -/
theorem exec_followsFaultTable (i : Instr) (s : State) : FollowsFaultTable i s := by
  cases i
  case ret x => exact ret_followsFaultTable x s
  case call nnn => exact call_followsFaultTable nnn s
  case skp x =>
    refine followsFaultTable_of_keyCheck (skips := fun k => s.keys[k]) rfl (fun noKey => ?_) (fun k key => ?_)
    · simp only [exec, execSkp, noKey]
    · simp only [exec, execSkp, key]
  case sknp x =>
    refine followsFaultTable_of_keyCheck (skips := fun k => !s.keys[k]) rfl (fun noKey => ?_) (fun k key => ?_)
    · simp only [exec, execSknp, noKey]
    · simp only [exec, execSknp, key]
  case ldBVx x => exact followsFaultTable_of_rangeCheck rfl rfl (State.inRange_false_iff s 2) rfl rfl
  case ldMemVx x => exact followsFaultTable_of_rangeCheck rfl rfl (State.inRange_false_iff s x.toNat) rfl rfl
  case ldVxMem x =>
    exact followsFaultTable_of_rangeCheck rfl rfl (State.inRange_false_iff s x.toNat) (State.setVs_runState _ _)
      (State.setVs_fault _ _)
  case drw x y n => exact followsFaultTable_of_rangeCheck rfl rfl (State.spriteInRange_false_iff s y n) rfl rfl
  case ldVxK x => exact ldVxK_followsFaultTable x s
  case seImm x nn => exact followsFaultTable_of_skipIf rfl rfl
  case sneImm x nn => exact followsFaultTable_of_skipIf rfl rfl
  case seReg x y n => exact followsFaultTable_of_skipIf rfl rfl
  case sneReg x y n => exact followsFaultTable_of_skipIf rfl rfl
  all_goals exact followsFaultTable_of_noRow rfl ⟨_, rfl, rfl, rfl⟩

/-- Settles O46: `exec_followsFaultTable` for the one next state there is; `State.raise` is the spec's fault entry. -/
theorem instructionFaultsExactlyByTable : Obligations.InstructionFaultsExactlyByTable := by
  intro i s t runs
  obtain ⟨faults, keeps⟩ := exec_followsFaultTable i s
  constructor
  · intro c a row
    cases runs.symm.trans (faults c a row)
    rfl
  · intro noRow
    obtain ⟨t', runs', kept⟩ := keeps noRow
    cases runs.symm.trans runs'
    exact kept

end Sys2Proof.Machine
end

section
/-! PROOF. A sprite drawn twice (spec/45_display.md, corner cases): a draw inverts the pixels under the sprite and leaves
alone everything that says which pixels those are, unless VF is one of the two coordinates. -/

open Sys2Proof.Claim

namespace Sys2Proof.Machine

/-- The sprite bytes that DXYN reads. -/
def State.spriteBytes (s : State) (y n : Nibble) : List Byte := s.loadBytes (s.ea 0) (rowsDrawn s y n)

/-- Whether the sprite of DXYN has a 1 bit on a pixel. -/
def State.spriteOn (s : State) (x y n : Nibble) (c : Fin 64) (r : Fin 32) : Bool :=
  Canvas.spriteAt s.cfg.drawClip (startColumn (s.getV x)) (s.spriteBytes y n) (startRow (s.getV y)) c.val r.val

/-- The state after DXYN draws. -/
def State.afterDraw (s : State) (x y n : Nibble) : State :=
  { s.setV vf (collisionByte s.cfg.vfReset (s.getV vf) (s.drawSprite x y n).2) with fb := (s.drawSprite x y n).1 }

/-- At most 15 rows are drawn, from a start row below 32: `Canvas.drawRows_spec` applies, and says which pixels a draw
inverts and when it collides. -/
theorem State.drawSprite_spec (s : State) (x y n : Nibble) :
    (∀ c r, (s.drawSprite x y n).1.pixel c r = (s.pixel c r ^^ s.spriteOn x y n c r)) ∧
    ((s.drawSprite x y n).2 = true ↔ ∃ c r, s.pixel c r = true ∧ s.spriteOn x y n c r = true) := by
  have column_lt : startColumn (s.getV x) < 64 := Nat.mod_lt _ (by decide)
  have row_lt : startRow (s.getV y) < 32 := Nat.mod_lt _ (by decide)
  have rows_lt : (s.spriteBytes y n).length < 16 := by
    have n_lt := n.isLt
    simp only [State.spriteBytes, State.length_loadBytes, rowsDrawn]
    split <;> omega
  obtain ⟨pixels, collides⟩ := Canvas.drawRows_spec s.cfg.drawClip _ column_lt (s.spriteBytes y n)
    (startRow (s.getV y)) (by omega) (by omega) (s.fb, false)
  exact ⟨pixels, collides.trans (or_iff_right Bool.false_ne_true)⟩

/-- R173: where no row of the fault table applies, DXYN draws. -/
theorem exec_drw_of_noFault {s : State} {x y n : Nibble} (noFault : faultCause (.drw x y n) s = none) :
    exec (.drw x y n) s = .next (s.afterDraw x y n) := by
  have inRange : s.spriteInRange y n = true := by
    rw [← Bool.not_eq_false, State.spriteInRange_false_iff]
    intro outside
    cases (if_pos outside).symm.trans noFault
  exact if_pos inRange

theorem State.pixel_afterDraw (s : State) (x y n : Nibble) (c : Fin 64) (r : Fin 32) :
    (s.afterDraw x y n).pixel c r = (s.pixel c r ^^ s.spriteOn x y n c r) :=
  (s.drawSprite_spec x y n).1 c r

/-- R175: a pixel that was on under the sprite is a collision, in both settings of QUIRK_VF_RESET. -/
theorem State.getV_vf_afterDraw_of_collision {s : State} {x y n : Nibble} {c : Fin 64} {r : Fin 32}
    (on : s.pixel c r = true) (under : s.spriteOn x y n c r = true) : (s.afterDraw x y n).getV vf = 1#8 := by
  have collides : (s.drawSprite x y n).2 = true := (s.drawSprite_spec x y n).2.mpr ⟨c, r, on, under⟩
  calc (s.afterDraw x y n).getV vf
    _ = collisionByte s.cfg.vfReset (s.getV vf) (s.drawSprite x y n).2 := State.getV_setV_same s vf _
    _ = 1#8 := by rw [collides]; rfl

theorem State.getV_afterDraw_ne_vf (s : State) {x y n k : Nibble} (k_ne_vf : k ≠ vf) :
    (s.afterDraw x y n).getV k = s.getV k :=
  State.getV_setV_ne s _ k_ne_vf

theorem rowsDrawn_afterDraw (s : State) {x y n : Nibble} (y_ne_vf : y ≠ vf) :
    rowsDrawn (s.afterDraw x y n) y n = rowsDrawn s y n := by
  rw [rowsDrawn, rowsDrawn, State.getV_afterDraw_ne_vf s y_ne_vf]
  rfl

theorem faultCause_drw_afterDraw (s : State) {x y n : Nibble} (y_ne_vf : y ≠ vf) :
    faultCause (.drw x y n) (s.afterDraw x y n) = faultCause (.drw x y n) s := by
  simp only [faultCause, rowsDrawn_afterDraw s y_ne_vf]
  rfl

/-- Neither the settings, memory, I nor the coordinates change, so the sprite stays where it is. -/
theorem State.spriteOn_afterDraw (s : State) {x y n : Nibble} (x_ne_vf : x ≠ vf) (y_ne_vf : y ≠ vf) :
    (s.afterDraw x y n).spriteOn x y n = s.spriteOn x y n := by
  funext c r
  simp only [State.spriteOn, State.spriteBytes, rowsDrawn_afterDraw s y_ne_vf, State.getV_afterDraw_ne_vf s x_ne_vf,
    State.getV_afterDraw_ne_vf s y_ne_vf]
  rfl

/-- Settles O37: both draws invert the same pixels, and a pixel the first turned on is under the sprite and on when the
second comes to it. -/
theorem drawingTwiceRestoresFramebuffer : Obligations.DrawingTwiceRestoresFramebuffer := by
  intro s t u x y n x_ne_vf y_ne_vf noFault draws drawsAgain
  cases draws.symm.trans (exec_drw_of_noFault noFault)
  have noFault' := (faultCause_drw_afterDraw s (x := x) (n := n) y_ne_vf).trans noFault
  cases drawsAgain.symm.trans (exec_drw_of_noFault noFault')
  have sameSprite := s.spriteOn_afterDraw (n := n) x_ne_vf y_ne_vf
  constructor
  · refine Framebuffer.pixel_ext fun c r => ?_
    calc ((s.afterDraw x y n).afterDraw x y n).pixel c r
      _ = ((s.pixel c r ^^ s.spriteOn x y n c r) ^^ s.spriteOn x y n c r) := by
        rw [State.pixel_afterDraw, State.pixel_afterDraw, sameSprite]
      _ = s.pixel c r := by rw [Bool.xor_assoc, Bool.xor_self, Bool.xor_false]
  · rintro ⟨c, r, off, turnedOn⟩
    have under : s.spriteOn x y n c r = true := by
      rwa [State.pixel_afterDraw, off, Bool.false_xor] at turnedOn
    exact State.getV_vf_afterDraw_of_collision turnedOn (sameSprite ▸ under)

end Sys2Proof.Machine
end

section
/-! PROOF. The decoder and the encoder are inverse to each other (spec/30_encoding.md R71, R72, R75 to R79): a word packed from
fields decodes by those fields, and the fields of a word pack to the word again. -/

namespace Sys2Proof

/-- R79: family F is the decoder's last arm. -/
theorem decodeWord_of_familyF {w : Word} (family : fieldF w = 0xF#4) : decodeWord w = decodeFamilyF w := by
  simp only [decodeWord, family]
  rfl

/-- Decoding the word of an instruction: the family, and in families 0, 8, E and F the second field, select its arm. -/
theorem decodeWord_encode (i : Instr) : decodeWord (encode i) = .ok i := by
  cases i
  case cls | ret =>
    simp only [encode, decodeWord, decodeFamily0, fieldF_packXNN, fieldX_packXNN, fieldNN_packXNN]
  case jp | call | ldI | jpV0 => simp only [encode, decodeWord, fieldF_packNNN, fieldNNN_packNNN]
  case seImm | sneImm | ldImm | addImm | rnd =>
    simp only [encode, decodeWord, fieldF_packXNN, fieldX_packXNN, fieldNN_packXNN]
  case seReg | sneReg | drw =>
    simp only [encode, decodeWord, fieldF_packXYN, fieldX_packXYN, fieldY_packXYN, fieldN_packXYN]
  case ldReg | or | and | xor | addReg | sub | shr | subn | shl =>
    simp only [encode, decodeWord, decodeFamily8, fieldF_packXYN, fieldX_packXYN, fieldY_packXYN, fieldN_packXYN]
  case skp | sknp =>
    simp only [encode, decodeWord, decodeFamilyE, fieldF_packXNN, fieldX_packXNN, fieldNN_packXNN]
  case ldVxDt | ldVxK | ldDtVx | ldStVx | addIVx | ldFVx | ldBVx | ldMemVx | ldVxMem =>
    rw [encode, decodeWord_of_familyF (fieldF_packXNN _ _ _)]
    simp only [decodeFamilyF, fieldX_packXNN, fieldNN_packXNN]

/-- The byte decoder is the word decoder on the first two bytes, high byte first (R53). -/
theorem decode_bytesOfWord_append {w : Word} {i : Instr} (decodes : decodeWord w = .ok i) (rest : List Byte) :
    decode (bytesOfWord w ++ rest) = .ok (i, rest) := by
  simp only [bytesOfWord, List.cons_append, List.nil_append, decode, wordOfBytes_bytesOfWord, decodes]

/-- Settles O1: `decodeWord_encode`, carried to the bytes by `decode_bytesOfWord_append`. -/
theorem decodeOfEncodeGivesBackInstruction : Obligations.DecodeOfEncodeGivesBackInstruction := by
  intro i
  exact ⟨decodeWord_encode i, decode_bytesOfWord_append (decodeWord_encode i)⟩

/-! ## A word is packed from its own fields -/

theorem packNNN_fields (w : Word) : packNNN (fieldF w) (fieldNNN w) = w := by
  apply BitVec.eq_of_toNat_eq
  rw [toNat_packNNN, toNat_fieldF, toNat_fieldNNN]
  omega

theorem packXNN_fields (w : Word) : packXNN (fieldF w) (fieldX w) (fieldNN w) = w := by
  apply BitVec.eq_of_toNat_eq
  rw [toNat_packXNN, toNat_fieldF, toNat_fieldX, toNat_fieldNN]
  omega

theorem packXYN_fields (w : Word) : packXYN (fieldF w) (fieldX w) (fieldY w) (fieldN w) = w := by
  apply BitVec.eq_of_toNat_eq
  rw [toNat_packXYN, toNat_fieldF, toNat_fieldX, toNat_fieldY, toNat_fieldN]
  omega

theorem packNNN_of_fieldF {w : Word} {f : Nibble} (family : fieldF w = f) : packNNN f (fieldNNN w) = w := by
  rw [← family, packNNN_fields]

theorem packXNN_of_fieldF {w : Word} {f : Nibble} (family : fieldF w = f) :
    packXNN f (fieldX w) (fieldNN w) = w := by
  rw [← family, packXNN_fields]

theorem packXNN_of_fieldNN {w : Word} {f : Nibble} {nn : Byte} (family : fieldF w = f) (low : fieldNN w = nn) :
    packXNN f (fieldX w) nn = w := by
  rw [← low, packXNN_of_fieldF family]

theorem packXYN_of_fieldF {w : Word} {f : Nibble} (family : fieldF w = f) :
    packXYN f (fieldX w) (fieldY w) (fieldN w) = w := by
  rw [← family, packXYN_fields]

theorem packXYN_of_fieldN {w : Word} {f n : Nibble} (family : fieldF w = f) (low : fieldN w = n) :
    packXYN f (fieldX w) (fieldY w) n = w := by
  rw [← low, packXYN_of_fieldF family]

/-! ## What a family decodes to is packed with that family -/

theorem encode_of_decodeFamily0 {w : Word} {i : Instr} (family : fieldF w = 0x0#4) (decodes : decodeFamily0 w = .ok i) :
    encode i = w := by
  unfold decodeFamily0 at decodes
  split at decodes <;> cases decodes
  all_goals exact packXNN_of_fieldNN family ‹_›

theorem encode_of_decodeFamily8 {w : Word} {i : Instr} (family : fieldF w = 0x8#4) (decodes : decodeFamily8 w = .ok i) :
    encode i = w := by
  unfold decodeFamily8 at decodes
  split at decodes <;> cases decodes
  all_goals exact packXYN_of_fieldN family ‹_›

theorem encode_of_decodeFamilyE {w : Word} {i : Instr} (family : fieldF w = 0xE#4) (decodes : decodeFamilyE w = .ok i) :
    encode i = w := by
  unfold decodeFamilyE at decodes
  split at decodes <;> cases decodes
  all_goals exact packXNN_of_fieldNN family ‹_›

theorem encode_of_decodeFamilyF {w : Word} {i : Instr} (family : fieldF w = 0xF#4) (decodes : decodeFamilyF w = .ok i) :
    encode i = w := by
  unfold decodeFamilyF at decodes
  split at decodes <;> cases decodes
  all_goals exact packXNN_of_fieldNN family ‹_›

theorem encode_of_decodeWord {w : Word} {i : Instr} (decodes : decodeWord w = .ok i) : encode i = w := by
  unfold decodeWord at decodes
  split at decodes
  case h_1 family => exact encode_of_decodeFamily0 family decodes
  case h_9 family => exact encode_of_decodeFamily8 family decodes
  case h_15 family => exact encode_of_decodeFamilyE family decodes
  case h_16 =>
    have family : fieldF w = 0xF#4 := by
      simp only [imp_false] at *
      bv_omega
    exact encode_of_decodeFamilyF family decodes
  all_goals cases decodes
  case h_2 family | h_3 family | h_11 family | h_12 family => exact packNNN_of_fieldF family
  case h_6 family | h_10 family | h_14 family => exact packXYN_of_fieldF family
  all_goals exact packXNN_of_fieldF ‹_›

/-- Settles O2: each arm of the decoder packs to the word again, by the fields that selected it. -/
theorem encodeOfDecodeGivesBackWord : Obligations.EncodeOfDecodeGivesBackWord := by
  intro w i decodes
  exact encode_of_decodeWord decodes

/-! ## The rows of the opcode map (R72) -/

theorem fieldF_and (a b : Word) : fieldF (a &&& b) = fieldF a &&& fieldF b := BitVec.extractLsb'_and
theorem fieldN_and (a b : Word) : fieldN (a &&& b) = fieldN a &&& fieldN b := BitVec.extractLsb'_and
theorem fieldNN_and (a b : Word) : fieldNN (a &&& b) = fieldNN a &&& fieldNN b := BitVec.extractLsb'_and

/-- A word that matches a mask with all of F set has the F of the match. -/
theorem fieldF_of_masked {w mask value : Word} (matches_row : w &&& mask = value)
    (masked : fieldF mask = BitVec.allOnes 4) : fieldF w = fieldF value := by
  rw [← matches_row, fieldF_and, masked, BitVec.and_allOnes]

theorem fieldN_of_masked {w mask value : Word} (matches_row : w &&& mask = value)
    (masked : fieldN mask = BitVec.allOnes 4) : fieldN w = fieldN value := by
  rw [← matches_row, fieldN_and, masked, BitVec.and_allOnes]

theorem fieldNN_of_masked {w mask value : Word} (matches_row : w &&& mask = value)
    (masked : fieldNN mask = BitVec.allOnes 8) : fieldNN w = fieldNN value := by
  rw [← matches_row, fieldNN_and, masked, BitVec.and_allOnes]

/-- The decoder finds the row a word matches: the masks hold the fields that it dispatches on. -/
theorem decodeWord_of_matches {w : Word} {m : Mnemonic} (matches_row : w &&& m.row.mask = m.row.value) :
    ∃ i, decodeWord w = .ok i ∧ i.mnemonic = m := by
  have family : fieldF w = fieldF m.row.value := fieldF_of_masked matches_row (by cases m <;> rfl)
  cases m
  case cls | ret =>
    have low := fieldNN_of_masked matches_row rfl
    exact ⟨_, by simp only [decodeWord, decodeFamily0, family, low]; rfl, rfl⟩
  case ldReg | or | and | xor | addReg | sub | shr | subn | shl =>
    have low := fieldN_of_masked matches_row rfl
    exact ⟨_, by simp only [decodeWord, decodeFamily8, family, low]; rfl, rfl⟩
  case skp | sknp =>
    have low := fieldNN_of_masked matches_row rfl
    exact ⟨_, by simp only [decodeWord, decodeFamilyE, family, low]; rfl, rfl⟩
  case ldVxDt | ldVxK | ldDtVx | ldStVx | addIVx | ldFVx | ldBVx | ldMemVx | ldVxMem =>
    have low := fieldNN_of_masked matches_row rfl
    exact ⟨_, by simp only [decodeWord, decodeFamilyF, family, low]; rfl, rfl⟩
  all_goals exact ⟨_, by simp only [decodeWord, family]; rfl, rfl⟩

/-- The word of every instruction matches the row of its mnemonic: the per-instruction statements, together. -/
theorem encode_matches_row : (i : Instr) → Laws.MatchesTableRow.Statement i
  | .cls x => Laws.MatchesTableRow.cls x
  | .ret x => Laws.MatchesTableRow.ret x
  | .jp nnn => Laws.MatchesTableRow.jp nnn
  | .call nnn => Laws.MatchesTableRow.call nnn
  | .seImm x nn => Laws.MatchesTableRow.seImm x nn
  | .sneImm x nn => Laws.MatchesTableRow.sneImm x nn
  | .seReg x y n => Laws.MatchesTableRow.seReg x y n
  | .ldImm x nn => Laws.MatchesTableRow.ldImm x nn
  | .addImm x nn => Laws.MatchesTableRow.addImm x nn
  | .ldReg x y => Laws.MatchesTableRow.ldReg x y
  | .or x y => Laws.MatchesTableRow.or x y
  | .and x y => Laws.MatchesTableRow.and x y
  | .xor x y => Laws.MatchesTableRow.xor x y
  | .addReg x y => Laws.MatchesTableRow.addReg x y
  | .sub x y => Laws.MatchesTableRow.sub x y
  | .shr x y => Laws.MatchesTableRow.shr x y
  | .subn x y => Laws.MatchesTableRow.subn x y
  | .shl x y => Laws.MatchesTableRow.shl x y
  | .sneReg x y n => Laws.MatchesTableRow.sneReg x y n
  | .ldI nnn => Laws.MatchesTableRow.ldI nnn
  | .jpV0 nnn => Laws.MatchesTableRow.jpV0 nnn
  | .rnd x nn => Laws.MatchesTableRow.rnd x nn
  | .drw x y n => Laws.MatchesTableRow.drw x y n
  | .skp x => Laws.MatchesTableRow.skp x
  | .sknp x => Laws.MatchesTableRow.sknp x
  | .ldVxDt x => Laws.MatchesTableRow.ldVxDt x
  | .ldVxK x => Laws.MatchesTableRow.ldVxK x
  | .ldDtVx x => Laws.MatchesTableRow.ldDtVx x
  | .ldStVx x => Laws.MatchesTableRow.ldStVx x
  | .addIVx x => Laws.MatchesTableRow.addIVx x
  | .ldFVx x => Laws.MatchesTableRow.ldFVx x
  | .ldBVx x => Laws.MatchesTableRow.ldBVx x
  | .ldMemVx x => Laws.MatchesTableRow.ldMemVx x
  | .ldVxMem x => Laws.MatchesTableRow.ldVxMem x

/-- The only error of the word decoder; `truncated` is the byte decoder's. -/
theorem unrecognized_of_decodeWord_error {w : Word} {e : Reject} (rejects : decodeWord w = .error e) :
    e = .unrecognized := by
  unfold decodeWord decodeFamily0 decodeFamily8 decodeFamilyE decodeFamilyF at rejects
  repeat' split at rejects
  all_goals cases rejects
  all_goals rfl

theorem matches_of_decodeWord {w : Word} {i : Instr} (decodes : decodeWord w = .ok i) :
    w &&& i.mnemonic.row.mask = i.mnemonic.row.value := by
  rw [← encode_of_decodeWord decodes]
  exact encode_matches_row i

/-- Settles O3: `decodeWord_of_matches` is one direction, and a decoded word is the word of an instruction, which matches its
row; so a word that matches no row cannot decode. -/
theorem wordDecodesToRowExactlyWhenMaskMatches : Obligations.WordDecodesToRowExactlyWhenMaskMatches := by
  intro w
  have row_iff (m : Mnemonic) : w &&& m.row.mask = m.row.value ↔ ∃ i, decodeWord w = .ok i ∧ i.mnemonic = m := by
    refine ⟨decodeWord_of_matches, ?_⟩
    rintro ⟨i, decodes, rfl⟩
    exact matches_of_decodeWord decodes
  refine ⟨row_iff, fun rejects m matches_row => ?_, fun noRow => ?_⟩
  · obtain ⟨i, decodes, -⟩ := decodeWord_of_matches matches_row
    cases decodes.symm.trans rejects
  · cases decoded : decodeWord w with
    | ok i => exact absurd (matches_of_decodeWord decoded) (noRow i.mnemonic)
    | error e => rw [unrecognized_of_decodeWord_error decoded]

/-- Settles O5: each word is the encoding of the instruction it stands for. -/
theorem specWordsDecode : Obligations.SpecWordsDecode :=
  ⟨decodeWord_encode (.ret 0), decodeWord_encode (.call 0x300), decodeWord_encode (.seImm 3 0x42),
    decodeWord_encode (.ldImm 0xA 0x42), decodeWord_encode (.sub 0xF 1), decodeWord_encode (.drw 0 1 5),
    decodeWord_encode (.sknp 5), decodeWord_encode (.ldVxMem 2), by decide⟩

/-! ## Assembler lines (R84) -/

theorem Operands.wellFormed_iff (o : Operands) :
    o.wellFormed = true ↔ o.x < 16 ∧ o.y < 16 ∧ o.n < 16 ∧ o.nn < 256 ∧ o.nnn < 4096 := by
  simp only [Operands.wellFormed, Bool.and_eq_true, decide_eq_true_eq, and_assoc]

theorem Operands.mnemonic_instr (o : Operands) (m : Mnemonic) : (o.instr m).mnemonic = m := by
  cases m <;> rfl

theorem SourceLine.assemble_op_of_wellFormed {o : Operands} (fits : o.wellFormed = true) (m : Mnemonic) :
    (SourceLine.op m o).assemble = some (encode (o.instr m)) := if_pos fits

theorem SourceLine.assemble_op_of_not_wellFormed {o : Operands} (overflows : ¬ o.wellFormed = true) (m : Mnemonic) :
    (SourceLine.op m o).assemble = none := if_neg overflows

/-- Settles O6: an accepted line has the word of its instruction, which decodes to that instruction. -/
theorem assembledLineDecodesToItsMnemonic : Obligations.AssembledLineDecodesToItsMnemonic := by
  intro m o
  rw [← o.wellFormed_iff]
  refine ⟨fun fits => ?_, fun overflows => SourceLine.assemble_op_of_not_wellFormed overflows m⟩
  exact ⟨encode (o.instr m), o.instr m, SourceLine.assemble_op_of_wellFormed fits m, decodeWord_encode _,
    o.mnemonic_instr m⟩

end Sys2Proof
end

section
/-! PROOF. The instructions with a check (spec/41_control_transfer.md, spec/44_index_memory.md, spec/45_display.md,
spec/46_keypad_timers.md): what each of them does when the check passes, and the two ends it can have. -/

namespace Sys2Proof.Machine

/-! ## The call stack: 00EE and 2NNN -/

theorem State.sp_zero_or_succ (s : State) : s.sp.val = 0 ∨ ∃ k : Fin 12, s.sp.val = k.val + 1 := by
  rcases Nat.eq_zero_or_pos s.sp.val with empty | notEmpty
  · exact .inl empty
  · exact .inr ⟨⟨s.sp.val - 1, by omega⟩, (Nat.succ_pred_eq_of_pos notEmpty).symm⟩

theorem State.sp_lt_or_full (s : State) : s.sp.val < 12 ∨ s.sp.val = 12 := by omega

/-- The state after 2NNN with room on the stack. -/
def State.called (s : State) (nnn : Addr12) (room : s.sp.val < 12) : State :=
  { s with pc := zext16 nnn, stack := s.stack.set s.sp.val s.pc, sp := ⟨s.sp.val + 1, Nat.succ_lt_succ room⟩ }

/-- The state after 00EE with `k + 1` entries on the stack. -/
def State.returned (s : State) (k : Fin 12) : State :=
  { s with pc := s.stack[k], sp := k.castSucc }

/-- R102, where the stack has room. -/
theorem exec_call_of_lt (nnn : Addr12) {s : State} (room : s.sp.val < 12) :
    exec (.call nnn) s = .next (s.called nnn room) :=
  exec_call_of_push nnn (State.pushReturn_of_lt s.pc room)

/-- R100, where the stack holds an entry. -/
theorem exec_ret_of_succ (x : Nibble) {s : State} (k : Fin 12) (entry : s.sp.val = k.val + 1) :
    exec (.ret x) s = .next (s.returned k) :=
  exec_ret_of_pop x (State.popReturn_of_pos k entry)

theorem exec_call_cases {nnn : Addr12} {s t : State} (runs : exec (.call nnn) s = .next t) :
    (∃ room, t = s.called nnn room) ∨ t = s.raise .stackOverflow (.call nnn) 0#16 := by
  rcases s.sp_lt_or_full with room | full
  · cases (exec_call_of_lt nnn room).symm.trans runs
    exact .inl ⟨room, rfl⟩
  · simp only [exec, execCall, State.pushReturn_full s.pc full] at runs
    cases runs
    exact .inr rfl

theorem exec_ret_cases {x : Nibble} {s t : State} (runs : exec (.ret x) s = .next t) :
    (∃ k : Fin 12, s.sp.val = k.val + 1 ∧ t = s.returned k) ∨ t = s.raise .stackUnderflow (.ret x) 0#16 := by
  rcases s.sp_zero_or_succ with empty | ⟨k, entry⟩
  · simp only [exec, execRet, State.popReturn_empty empty] at runs
    cases runs
    exact .inr rfl
  · cases (exec_ret_of_succ x k entry).symm.trans runs
    exact .inl ⟨k, entry, rfl⟩

/-! ## The keypad: EX9E, EXA1 and FX0A -/

theorem exec_skp_of_noKey {x : Nibble} {s : State} (noKey : keyIndex (s.getV x) = none) :
    exec (.skp x) s = .next (s.raise .keyRange (.skp x) (zext16 (s.getV x))) := by
  simp only [exec, execSkp, noKey]

theorem exec_skp_of_key {x : Nibble} {s : State} {k : Fin 16} (key : keyIndex (s.getV x) = some k) :
    exec (.skp x) s = .next (s.skipIf s.keys[k]) := by
  simp only [exec, execSkp, key]

theorem exec_sknp_of_noKey {x : Nibble} {s : State} (noKey : keyIndex (s.getV x) = none) :
    exec (.sknp x) s = .next (s.raise .keyRange (.sknp x) (zext16 (s.getV x))) := by
  simp only [exec, execSknp, noKey]

theorem exec_sknp_of_key {x : Nibble} {s : State} {k : Fin 16} (key : keyIndex (s.getV x) = some k) :
    exec (.sknp x) s = .next (s.skipIf (!s.keys[k])) := by
  simp only [exec, execSknp, key]

theorem exec_skp_cases {x : Nibble} {s t : State} (runs : exec (.skp x) s = .next t) :
    (∃ k : Fin 16, t = s.skipIf s.keys[k]) ∨ t = s.raise .keyRange (.skp x) (zext16 (s.getV x)) := by
  cases key : keyIndex (s.getV x) with
  | none =>
    cases (exec_skp_of_noKey key).symm.trans runs
    exact .inr rfl
  | some k =>
    cases (exec_skp_of_key key).symm.trans runs
    exact .inl ⟨k, rfl⟩

theorem exec_sknp_cases {x : Nibble} {s t : State} (runs : exec (.sknp x) s = .next t) :
    (∃ k : Fin 16, t = s.skipIf (!s.keys[k])) ∨ t = s.raise .keyRange (.sknp x) (zext16 (s.getV x)) := by
  cases key : keyIndex (s.getV x) with
  | none =>
    cases (exec_sknp_of_noKey key).symm.trans runs
    exact .inr rfl
  | some k =>
    cases (exec_sknp_of_key key).symm.trans runs
    exact .inl ⟨k, rfl⟩

theorem exec_ldVxK_of_none {s : State} (x : Nibble) (released : lowestKey s.keys = none) :
    exec (.ldVxK x) s = .next s.rewind := by
  simp only [exec, execLdVxK, released]

theorem exec_ldVxK_of_some {s : State} (x : Nibble) {k : Fin 16} (pressed : lowestKey s.keys = some k) :
    exec (.ldVxK x) s = .next (s.setV x (.ofNat 8 k.val)) := by
  simp only [exec, execLdVxK, pressed]

theorem exec_ldVxK_cases {x : Nibble} {s t : State} (runs : exec (.ldVxK x) s = .next t) :
    (∃ k : Fin 16, t = s.setV x (.ofNat 8 k.val)) ∨ t = s.rewind := by
  cases pressed : lowestKey s.keys with
  | none =>
    cases (exec_ldVxK_of_none x pressed).symm.trans runs
    exact .inr rfl
  | some k =>
    cases (exec_ldVxK_of_some x pressed).symm.trans runs
    exact .inl ⟨k, rfl⟩

/-! ## Memory: FX33, FX55, FX65 and DXYN -/

section
variable {s t : State} {x : Nibble}

theorem exec_ldBVx_of_inRange (inRange : s.i.toNat + 2 ≤ 0x0FFF) :
    exec (.ldBVx x) s = .next (s.storeBytes (s.ea 0) (decimalDigits (s.getV x))) :=
  if_pos ((s.inRange_iff 2).mpr inRange)

theorem exec_ldMemVx_of_inRange (inRange : s.i.toNat + x.toNat ≤ 0x0FFF) :
    exec (.ldMemVx x) s = .next (s.storeBytes (s.ea 0) (s.regsUpTo x)) :=
  if_pos ((s.inRange_iff x.toNat).mpr inRange)

theorem exec_ldVxMem_of_inRange (inRange : s.i.toNat + x.toNat ≤ 0x0FFF) :
    exec (.ldVxMem x) s = .next (s.setVs (s.loadBytes (s.ea 0) (x.toNat + 1))) :=
  if_pos ((s.inRange_iff x.toNat).mpr inRange)

/-- The two ends of an arm whose check has two next states. -/
theorem next_cases_of_check {ok : Prop} [Decidable ok] {passed failed : State}
    (runs : (if ok then .next passed else .next failed : Host.Outcome State Fault Refusal) = .next t) :
    (ok ∧ t = passed) ∨ (¬ ok ∧ t = failed) := by
  split at runs <;> cases runs
  · exact .inl ⟨‹_›, rfl⟩
  · exact .inr ⟨‹_›, rfl⟩

theorem exec_ldBVx_cases (runs : exec (.ldBVx x) s = .next t) :
    (s.i.toNat + 2 ≤ 0x0FFF ∧ t = s.storeBytes (s.ea 0) (decimalDigits (s.getV x))) ∨
    t = s.raise .writeBounds (.ldBVx x) s.lowestOutOfRange :=
  (next_cases_of_check runs).imp (And.imp_left (s.inRange_iff 2).mp) And.right

theorem exec_ldMemVx_cases (runs : exec (.ldMemVx x) s = .next t) :
    (s.i.toNat + x.toNat ≤ 0x0FFF ∧ t = s.storeBytes (s.ea 0) (s.regsUpTo x)) ∨
    t = s.raise .writeBounds (.ldMemVx x) s.lowestOutOfRange :=
  (next_cases_of_check runs).imp (And.imp_left (s.inRange_iff x.toNat).mp) And.right

theorem exec_ldVxMem_cases (runs : exec (.ldVxMem x) s = .next t) :
    (s.i.toNat + x.toNat ≤ 0x0FFF ∧ t = s.setVs (s.loadBytes (s.ea 0) (x.toNat + 1))) ∨
    t = s.raise .readBounds (.ldVxMem x) s.lowestOutOfRange :=
  (next_cases_of_check runs).imp (And.imp_left (s.inRange_iff x.toNat).mp) And.right

theorem exec_drw_cases {y n : Nibble} (runs : exec (.drw x y n) s = .next t) :
    t = s.afterDraw x y n ∨ t = s.raise .readBounds (.drw x y n) s.lowestOutOfRange :=
  (next_cases_of_check runs).imp And.right And.right

end

/-- The bytes of FX33 in range lie in memory. -/
theorem State.decimalDigits_inside {s : State} (inRange : s.i.toNat + 2 ≤ 0x0FFF) (b : Byte) :
    s.ea 0 + (decimalDigits b).length ≤ 0x1000 := by
  rw [length_decimalDigits, State.ea]
  omega

/-- The bytes of FX55 in range lie in memory. -/
theorem State.regsUpTo_inside {s : State} {x : Nibble} (inRange : s.i.toNat + x.toNat ≤ 0x0FFF) :
    s.ea 0 + (s.regsUpTo x).length ≤ 0x1000 := by
  rw [State.length_regsUpTo, State.ea]
  omega

end Sys2Proof.Machine
end

section
/-! PROOF. What the execute phase of any instruction leaves unchanged (spec/40_cycle.md R98; D27): the fields with the
instructions that write them, then the single registers and the single bytes of memory, and that the controller's fields are not
read either. -/

open Sys2Proof.Claim

namespace Sys2Proof.Machine

/-! ## An execute phase answers one next state -/

/-- R211, R220: a fault is a next state, and so is every other end of an instruction. -/
theorem exec_total (i : Instr) (s : State) : ∃ t, exec i s = .next t := by
  obtain ⟨faults, completes⟩ := exec_followsFaultTable i s
  cases row : faultCause i s with
  | none =>
    obtain ⟨t, runs, -⟩ := completes row
    exact ⟨t, runs⟩
  | some cause => exact ⟨_, faults cause.1 cause.2 row⟩

theorem instructionStep_total (s : State) : ∃ t, instructionStep s = .next t := by
  rcases instructionStep_cases s with ⟨-, faults⟩ | ⟨-, advances⟩ | ⟨i, -, -, executes⟩
  · exact ⟨_, faults⟩
  · exact ⟨_, advances⟩
  · obtain ⟨t, runs⟩ := exec_total i s.advance
    exact ⟨t, executes.trans runs⟩

theorem step_total (s : State) : ∃ t, step s = .next t := by
  cases inFrame : s.enterFrame.midFrame with
  | true =>
    obtain ⟨u, runs⟩ := instructionStep_total s.enterFrame
    exact ⟨u.endStep, by rw [step_in_frame inFrame, runs, mapNext_next]⟩
  | false => exact ⟨_, step_without_instruction inFrame⟩

/-- Settles O48: no arm of `exec` answers a fault or a refusal, and the controller adds none. -/
theorem everyStateHasNextState : Obligations.EveryStateHasNextState :=
  ⟨exec_total, step_total⟩

/-! ## Fields, each with the instructions that write it -/

/-- The instructions that write a general register (R23). -/
def registerWriters : List Mnemonic :=
  [.ldImm, .addImm, .ldReg, .or, .and, .xor, .addReg, .sub, .shr, .subn, .shl, .rnd, .drw, .ldVxDt, .ldVxK, .ldVxMem]

/-- `t` is `s` but for the fields that `i` writes, FAULT and the run state. -/
structure ExecFrame (i : Instr) (s t : State) : Prop where
  v : t.v ≠ s.v → i.mnemonic ∈ registerWriters
  mem : t.mem ≠ s.mem → i.mnemonic ∈ [.ldBVx, .ldMemVx]
  index : t.i ≠ s.i → i.mnemonic ∈ [.ldI, .addIVx, .ldFVx]
  pc : t.pc ≠ s.pc → i.mnemonic ∈ [.ret, .jp, .call, .jpV0, .seImm, .sneImm, .seReg, .sneReg, .skp, .sknp, .ldVxK]
  stack : t.sp ≠ s.sp ∨ t.stack ≠ s.stack → i.mnemonic ∈ [.call, .ret]
  fb : t.fb ≠ s.fb → i.mnemonic ∈ [.cls, .drw]
  dt : t.dt ≠ s.dt → i.mnemonic = .ldDtVx
  st : t.st ≠ s.st → i.mnemonic = .ldStVx
  random : t.rnd ≠ s.rnd ∨ t.draws ≠ s.draws → i.mnemonic = .rnd
  keys : t.keys = s.keys
  cfg : t.cfg = s.cfg
  frameLeft : t.frameLeft = s.frameLeft
  host : t.host = s.host
  turns : t.turns = s.turns

/-- 00E0 shares its group in `exec_next_cases` with DXYN, but not the write of VF. -/
theorem v_of_exec_cls {i : Instr} {s t : State} (runs : exec i s = .next t) (clears : i.mnemonic = .cls) : t.v = s.v := by
  cases i <;> cases clears
  cases runs
  rfl

/-- Each group of `exec_next_cases` is one list of instructions, and writes only what the clauses of that list name. -/
theorem execFrame_of_exec {i : Instr} {s t : State} (runs : exec i s = .next t) : ExecFrame i s t := by
  have clear_keeps_v := v_of_exec_cls runs
  rcases exec_next_cases i s t runs with ⟨c, a, rfl⟩ | ⟨p, sp, stk, rfl, named⟩ | ⟨p, rfl, named⟩ |
    ⟨v, rfl, named⟩ | ⟨v, rfl, named⟩ | ⟨w, rfl, named⟩ | ⟨m, rfl, named⟩ | ⟨fb, v, rfl, named⟩ | ⟨b, rfl, named⟩ |
    ⟨b, rfl, named⟩
  all_goals constructor <;> simp_all [registerWriters] <;> tauto

section
variable {i : Instr} {s t : State}

theorem ExecFrame.v_kept (frame : ExecFrame i s t) (notWriter : i.mnemonic ∉ registerWriters) : t.v = s.v :=
  not_imp_comm.mp frame.v notWriter

theorem ExecFrame.mem_kept (frame : ExecFrame i s t) (notStore : i.mnemonic ∉ [.ldBVx, .ldMemVx]) : t.mem = s.mem :=
  not_imp_comm.mp frame.mem notStore

theorem ExecFrame.pc_kept (frame : ExecFrame i s t) (notControl : i.mnemonic ∉
    [.ret, .jp, .call, .jpV0, .seImm, .sneImm, .seReg, .sneReg, .skp, .sknp, .ldVxK]) : t.pc = s.pc :=
  not_imp_comm.mp frame.pc notControl

theorem ExecFrame.stack_kept (frame : ExecFrame i s t) (notStack : i.mnemonic ∉ [.call, .ret]) :
    t.sp = s.sp ∧ t.stack = s.stack := by
  obtain ⟨sp_kept, stack_kept⟩ := not_or.mp (mt frame.stack notStack)
  exact ⟨not_not.mp sp_kept, not_not.mp stack_kept⟩

end

/-- Settles O44: the index clause of the frame. -/
theorem indexChangesOnlyByThreeInstructions : Obligations.IndexChangesOnlyByThreeInstructions := by
  intro i s t runs
  exact (execFrame_of_exec runs).index

/-- Settles O45: the other clauses of the frame. -/
theorem otherStateChangesOnlyWhereNamed : Obligations.OtherStateChangesOnlyWhereNamed := by
  intro i s t runs
  have frame := execFrame_of_exec runs
  exact ⟨frame.pc, frame.stack, frame.fb, frame.dt, frame.st, frame.random, frame.keys, frame.cfg, frame.frameLeft,
    frame.host, frame.turns⟩

/-! ## Single registers (R23) -/

theorem State.getV_congr {s t : State} (same : t.v = s.v) (r : Nibble) : t.getV r = s.getV r := by
  simp only [State.getV, same]

theorem State.getV_setFlagThenV_ne (s : State) {x r : Nibble} (f : Bool) (b : Byte) (h : ¬ (r = x ∨ r = vf)) :
    (s.setFlagThenV f x b).getV r = s.getV r := by
  obtain ⟨r_ne_x, r_ne_vf⟩ := not_or.mp h
  rw [State.getV_setFlagThenV, if_neg r_ne_x, if_neg r_ne_vf]

/-- FX65 in range loads as many registers as it reads bytes; the registers above them are kept (R157). -/
theorem State.getV_setVs_loadBytes (s : State) (a n : Nat) (r : Nibble) :
    (s.setVs (s.loadBytes a n)).getV r = if r.toNat < n then s.byteAt (a + r.toNat) else s.getV r := by
  rw [State.getV_setVs, State.getD_loadBytes]

/-- A register that the table of R23 does not give to the instruction keeps its value. -/
theorem getV_of_exec {i : Instr} {s t : State} {r : Nibble} (runs : exec i s = .next t) (unwritten : ¬ writesV i r) :
    t.getV r = s.getV r := by
  cases i
  case ldImm | addImm | ldReg | or | and | xor | rnd | ldVxDt =>
    cases runs
    exact State.getV_setV_ne _ _ unwritten
  case addReg | sub | shr | subn | shl =>
    cases runs
    exact State.getV_setFlagThenV_ne s _ _ unwritten
  case ldVxK x =>
    rcases exec_ldVxK_cases runs with ⟨k, rfl⟩ | rfl
    · exact State.getV_setV_ne s _ unwritten
    · rfl
  case drw x y n =>
    rcases exec_drw_cases runs with rfl | rfl
    · exact State.getV_afterDraw_ne_vf s unwritten
    · rfl
  case ldVxMem x =>
    rcases exec_ldVxMem_cases runs with ⟨-, rfl⟩ | rfl
    · rw [State.getV_setVs_loadBytes, if_neg (by simpa [writesV, Nat.lt_succ_iff] using unwritten)]
    · rfl
  all_goals
    have v_kept := (execFrame_of_exec runs).v_kept (by simp [Instr.mnemonic, registerWriters])
    exact State.getV_congr v_kept r

/-- Settles O42: `getV_of_exec`. -/
theorem registersChangeOnlyWhereNamed : Obligations.RegistersChangeOnlyWhereNamed := by
  intro i s t r
  exact getV_of_exec

/-! ## Single bytes of memory (R52) -/

/-- In range, a list of stores leaves every byte outside it alone. -/
theorem State.byteAt_storeBytes_outside {s : State} (canonical : s.mem.wf = true) {a : Nat} {bs : List Byte}
    (inside : a + bs.length ≤ 0x1000) {b : Nat} (outside : b < a ∨ a + bs.length ≤ b) :
    (s.storeBytes a bs).byteAt b = s.byteAt b := by
  rw [State.byteAt_storeBytes canonical a bs inside]
  split
  · rw [List.getD_eq_default _ _ (by omega)]
  · rfl

/-- Settles O43: 32 instructions leave memory as it is; FX33 and FX55 in range store a list of bytes at I, and out of range
they fault before any store. -/
theorem memoryChangesOnlyWhereStored : Obligations.MemoryChangesOnlyWhereStored := by
  intro i s t a canonical runs notStored
  cases i
  case ldBVx x =>
    rcases exec_ldBVx_cases runs with ⟨inRange, rfl⟩ | rfl
    · refine State.byteAt_storeBytes_outside canonical (State.decimalDigits_inside inRange _) ?_
      simp only [storesTo, State.ea] at notStored
      rw [length_decimalDigits, State.ea]
      omega
    · rfl
  case ldMemVx x =>
    rcases exec_ldMemVx_cases runs with ⟨inRange, rfl⟩ | rfl
    · refine State.byteAt_storeBytes_outside canonical (State.regsUpTo_inside inRange) ?_
      simp only [storesTo, State.ea] at notStored
      rw [State.length_regsUpTo, State.ea]
      omega
    · rfl
  all_goals
    have mem_kept := (execFrame_of_exec runs).mem_kept (by simp [Instr.mnemonic])
    exact State.byteAt_congr mem_kept a

/-! ## The controller's fields are not read (R37) -/

/-- `s` with the controller's count, the turn counter and the host's coming turns replaced. -/
def State.withController (s : State) (k n : Nat) (h : List HostTurn) : State :=
  { s with frameLeft := k, turns := n, host := h }

section
variable (s : State) (k n : Nat) (h : List HostTurn)

@[simp] theorem State.getV_withController (x : Nibble) : (s.withController k n h).getV x = s.getV x := rfl
@[simp] theorem State.keys_withController : (s.withController k n h).keys = s.keys := rfl
@[simp] theorem State.pc_withController : (s.withController k n h).pc = s.pc := rfl
@[simp] theorem State.inRange_withController (last : Nat) : (s.withController k n h).inRange last = s.inRange last := rfl
@[simp] theorem State.spriteInRange_withController (y m : Nibble) :
    (s.withController k n h).spriteInRange y m = s.spriteInRange y m := rfl

theorem State.skipIf_withController (c : Bool) :
    (s.withController k n h).skipIf c = (s.skipIf c).withController k n h := by
  cases c <;> rfl

theorem State.popReturn_withController :
    (s.withController k n h).popReturn = s.popReturn.map fun p => (p.1, p.2.withController k n h) := by
  rcases s.sp_zero_or_succ with empty | ⟨j, entry⟩
  · rw [State.popReturn_empty empty]
    exact State.popReturn_empty (s := s.withController k n h) empty
  · rw [State.popReturn_of_pos j entry]
    exact State.popReturn_of_pos (s := s.withController k n h) j entry

theorem State.pushReturn_withController (w : Word) :
    (s.withController k n h).pushReturn w = (s.pushReturn w).map (State.withController · k n h) := by
  rcases s.sp_lt_or_full with room | full
  · rw [State.pushReturn_of_lt w room]
    exact State.pushReturn_of_lt (s := s.withController k n h) w room
  · rw [State.pushReturn_full w full]
    exact State.pushReturn_full (s := s.withController k n h) w full

/-- Every arm of `exec` commutes with the replacement: an arm without a branch by computing, the others after the split of
their check. -/
theorem exec_withController (i : Instr) :
    exec i (s.withController k n h) = mapNext (State.withController · k n h) (exec i s) := by
  cases i
  case seImm | sneImm | seReg | sneReg => exact congrArg Host.Outcome.next (s.skipIf_withController k n h _)
  case skp x =>
    simp only [exec, execSkp, State.getV_withController, State.keys_withController, State.skipIf_withController]
    split <;> rfl
  case sknp x =>
    simp only [exec, execSknp, State.getV_withController, State.keys_withController, State.skipIf_withController]
    split <;> rfl
  case ret x =>
    simp only [exec, execRet, State.popReturn_withController]
    cases s.popReturn <;> rfl
  case call nnn =>
    simp only [exec, execCall, State.pc_withController, State.pushReturn_withController]
    cases s.pushReturn s.pc <;> rfl
  case ldVxK x =>
    simp only [exec, execLdVxK, State.keys_withController]
    split <;> rfl
  case ldBVx x | ldMemVx x | ldVxMem x =>
    simp only [exec, execLdBVx, execLdMemVx, execLdVxMem, State.inRange_withController, apply_ite (mapNext _)]
    rfl
  case drw x y n =>
    simp only [exec, execDrw, State.spriteInRange_withController, apply_ite (mapNext _)]
    rfl
  all_goals rfl

end

/-- Settles O47: `exec_withController`. -/
theorem controllerFieldsAreInvisibleToInstructions : Obligations.ControllerFieldsAreInvisibleToInstructions := by
  intro i s k n h
  exact exec_withController s k n h i

end Sys2Proof.Machine
end

section
/-! PROOF. The instruction step and the controller around it (spec/40_cycle.md R90 to R99; spec/60_exceptions.md R230 to R235):
what one step of the machine does to the run state, the latched keys and the timers. -/

open Sys2Proof.Claim

namespace Sys2Proof.Machine

/-! ## The instruction step -/

/-- Settles O7: a fetched word that decodes is executed after the advance, inside the controller's frame. -/
theorem stepRunsDecodedInstruction : Obligations.StepRunsDecodedInstruction := by
  refine ⟨fun s i inFrame fetchable decodes => ?_, fun s inFrame => State.enterFrame_of_midFrame inFrame,
    fun s boundary => State.enterFrame_of_boundary boundary⟩
  rw [step_in_frame inFrame, instructionStep_decoded fetchable decodes]
  rfl

/-- The address of a fetch fault is the lowest byte of the word at PC that lies above 0x0FFF (R91). -/
theorem State.fetchFault_fault {s : State} :
    s.fetchFault.fault = ⟨some .fetchBounds, s.pc, 0#16, .ofNat 16 (max s.pc.toNat 0x1000)⟩ := by
  rw [State.fetchFault_eq, State.enterFault_fault]
  split
  · rw [Nat.max_eq_left (by omega), BitVec.ofNat_toNat, BitVec.setWidth_eq]
  · rw [Nat.max_eq_right (by omega)]

/-- Settles O9: the fetched word is read high byte first, and above 0x0FFE the step is `fetchFault`. -/
theorem fetchIsBigEndianAndBounded : Obligations.FetchIsBigEndianAndBounded := by
  refine ⟨fun s => toNat_wordOfBytes _ _, fun s unfetchable => ?_⟩
  exact ⟨s.fetchFault, instructionStep_outOfBounds unfetchable, rfl, rfl, State.fetchFault_fault, rfl⟩

/-- Settles O10: the no-op of R80 is the advance. -/
theorem unrecognizedWordOnlyAdvancesPc : Obligations.UnrecognizedWordOnlyAdvancesPc := by
  intro s fetchable rejects
  exact ⟨s.advance, instructionStep_unrecognized fetchable rejects, State.advance_pc_toNat fetchable, rfl⟩

/-- The run state and FAULT after an instruction: kept together, or a fault was raised (R211, R220). -/
def KeptOrFaulted (s t : State) : Prop :=
  (t.runState = s.runState ∧ t.fault = s.fault) ∨ (t.runState = .faulted ∧ t.fault.code ≠ none)

theorem keptOrFaulted_of_exec {i : Instr} {s t : State} (runs : exec i s = .next t) : KeptOrFaulted s t := by
  obtain ⟨faults, keeps⟩ := instructionFaultsExactlyByTable i s t runs
  cases row : faultCause i s with
  | none => exact .inl (keeps row)
  | some cause =>
    obtain rfl := faults cause.1 cause.2 row
    exact .inr ⟨rfl, Option.some_ne_none _⟩

/-- What an instruction step keeps for the controller around it. -/
structure StepFrame (s u : State) : Prop where
  keys : u.keys = s.keys
  cfg : u.cfg = s.cfg
  frameLeft : u.frameLeft = s.frameLeft
  host : u.host = s.host
  turns : u.turns = s.turns
  runState : KeptOrFaulted s u

theorem stepFrame_of_instructionStep {s u : State} (runs : instructionStep s = .next u) : StepFrame s u := by
  rcases instructionStep_cases s with ⟨-, faults⟩ | ⟨-, advances⟩ | ⟨i, -, -, executes⟩
  · cases faults.symm.trans runs
    exact ⟨rfl, rfl, rfl, rfl, rfl, .inr ⟨rfl, Option.some_ne_none _⟩⟩
  · cases advances.symm.trans runs
    exact ⟨rfl, rfl, rfl, rfl, rfl, .inl ⟨rfl, rfl⟩⟩
  · have execRuns := executes.symm.trans runs
    have frame := execFrame_of_exec execRuns
    have after : KeptOrFaulted s.advance u := keptOrFaulted_of_exec execRuns
    exact ⟨frame.keys, frame.cfg, frame.frameLeft, frame.host, frame.turns, after⟩

/-! ## The controller's moves, field by field -/

@[simp] theorem State.endStep_runState (u : State) : u.endStep.runState = u.runState := by
  rcases u.endStep_cases with ⟨-, ends⟩ | ⟨-, -, ends⟩ | ⟨-, -, ends⟩ <;> rw [ends]

@[simp] theorem State.endStep_fault (u : State) : u.endStep.fault = u.fault := by
  rcases u.endStep_cases with ⟨-, ends⟩ | ⟨-, -, ends⟩ | ⟨-, -, ends⟩ <;> rw [ends]

@[simp] theorem State.endStep_keys (u : State) : u.endStep.keys = u.keys := by
  rcases u.endStep_cases with ⟨-, ends⟩ | ⟨-, -, ends⟩ | ⟨-, -, ends⟩ <;> rw [ends]

theorem State.emptyFrame_of_running {s : State} (running : s.runState = .running) : s.emptyFrame = s.tick :=
  if_pos running

theorem State.emptyFrame_of_held {s : State} (held : s.runState ≠ .running) : s.emptyFrame = s := if_neg held

@[simp] theorem State.emptyFrame_runState (s : State) : s.emptyFrame.runState = s.runState := by
  unfold State.emptyFrame
  split <;> rfl

@[simp] theorem State.emptyFrame_keys (s : State) : s.emptyFrame.keys = s.keys := by
  unfold State.emptyFrame
  split <;> rfl

theorem State.hostTurn_runState (s : State) : s.hostTurn.runState = applyCommand s.nextTurn.cmd s.runState := by
  by_cases running : applyCommand s.nextTurn.cmd s.runState = .running
  · rw [State.hostTurn_running running]
    rfl
  · rw [State.hostTurn_held running]
    rfl

/-- R234: no command enters or leaves Faulted. -/
theorem applyCommand_eq_faulted_iff (c : HostCommand) (r : RunState) : applyCommand c r = .faulted ↔ r = .faulted := by
  cases c <;> cases r <;> decide

/-- Settles O49: the table of R234, row by row. -/
theorem hostCommandsFollowTable : Obligations.HostCommandsFollowTable := by
  refine ⟨rfl, rfl, rfl, rfl, rfl, rfl, ?quit, ?faulted, ?none⟩
  case quit => exact fun c => by cases c <;> rfl
  case faulted => exact fun c => (applyCommand_eq_faulted_iff c .faulted).mpr rfl
  case none => exact fun r => rfl

/-! ## A step, by the machine's run state and frame -/

theorem State.runState_of_midFrame {s : State} (inFrame : s.midFrame = true) : s.runState = .running :=
  (s.midFrame_iff.mp inFrame).1

/-- A step inside a frame is an instruction step and its end. -/
theorem step_of_midFrame {s t : State} (inFrame : s.midFrame = true) (steps : step s = .next t) :
    ∃ u, instructionStep s = .next u ∧ t = u.endStep := by
  have entered := State.enterFrame_of_midFrame inFrame
  rw [step_in_frame (by rw [entered, inFrame]), entered] at steps
  exact mapNext_eq_next steps

/-- A step between frames: the host's turn, then an instruction step where the turn opened a frame that has steps. -/
theorem step_of_boundary {s t : State} (boundary : s.midFrame = false) (steps : step s = .next t) :
    (s.hostTurn.midFrame = true ∧ ∃ u, instructionStep s.hostTurn = .next u ∧ t = u.endStep) ∨
    (s.hostTurn.midFrame = false ∧ t = s.hostTurn.emptyFrame) := by
  have cases_of_step := step_next_cases steps
  rwa [State.enterFrame_of_boundary boundary] at cases_of_step

/-- An instruction step is taken in a Running machine, and leaves it Running or Faulted with a code in FAULT. -/
theorem runState_of_instructionStep {s u : State} (inFrame : s.midFrame = true) (runs : instructionStep s = .next u) :
    u.runState = .running ∨ (u.runState = .faulted ∧ u.fault.code ≠ none) := by
  rw [← State.runState_of_midFrame inFrame]
  exact (stepFrame_of_instructionStep runs).runState.imp_left And.left

theorem runState_of_step_of_midFrame {s t : State} (inFrame : s.midFrame = true) (steps : step s = .next t) :
    t.runState = .running ∨ (t.runState = .faulted ∧ t.fault.code ≠ none) := by
  obtain ⟨u, runs, rfl⟩ := step_of_midFrame inFrame steps
  rw [State.endStep_runState, State.endStep_fault]
  exact runState_of_instructionStep inFrame runs

theorem runState_of_step_of_boundary {s t : State} (boundary : s.midFrame = false) (steps : step s = .next t) :
    t.runState = applyCommand s.nextTurn.cmd s.runState ∨
    (applyCommand s.nextTurn.cmd s.runState = .running ∧ t.runState = .faulted ∧ t.fault.code ≠ none) := by
  rw [← s.hostTurn_runState]
  rcases step_of_boundary boundary steps with ⟨opened, u, runs, rfl⟩ | ⟨-, rfl⟩
  · have running := State.runState_of_midFrame opened
    rw [State.endStep_runState, State.endStep_fault]
    rcases runState_of_instructionStep opened runs with keeps | faults
    · exact .inl (keeps.trans running.symm)
    · exact .inr ⟨running, faults⟩
  · exact .inl (State.emptyFrame_runState _)

/-- Settles O50: inside a frame only a fault leaves Running, and no command of the host's enters Faulted. -/
theorem onlyHostAndFaultsChangeRunState : Obligations.OnlyHostAndFaultsChangeRunState := by
  intro s t steps
  refine ⟨fun inFrame => ?_, fun boundary => ?_, fun faulted notFaulted => ?_⟩
  · exact (runState_of_step_of_midFrame inFrame steps).imp_right And.left
  · exact (runState_of_step_of_boundary boundary steps).imp_right fun ⟨running, faults, _⟩ => ⟨running, faults⟩
  · cases place : s.midFrame with
    | true =>
      rcases runState_of_step_of_midFrame place steps with running | ⟨-, code⟩
      · cases running.symm.trans faulted
      · exact code
    | false =>
      rcases runState_of_step_of_boundary place steps with byTable | ⟨-, -, code⟩
      · exact absurd ((applyCommand_eq_faulted_iff _ _).mp (byTable.symm.trans faulted)) notFaulted
      · exact code

/-- A turn that leaves the machine not Running opens no frame. -/
theorem State.hostTurn_midFrame_of_held {s : State} (held : applyCommand s.nextTurn.cmd s.runState ≠ .running) :
    s.hostTurn.midFrame = false := by
  rw [← Bool.not_eq_true, State.midFrame_iff, State.hostTurn_runState]
  exact fun opened => held opened.1

/-- Where the host's turn leaves the machine not Running, the step is that turn (R235). -/
theorem step_of_held {s : State} (boundary : s.midFrame = false)
    (held : applyCommand s.nextTurn.cmd s.runState ≠ .running) : step s = .next { s.takeTurn with frameLeft := 0 } := by
  have noFrame := State.hostTurn_midFrame_of_held held
  have held' : s.hostTurn.runState ≠ .running := by rwa [State.hostTurn_runState]
  have entered := State.enterFrame_of_boundary boundary
  rw [step_without_instruction (by rw [entered, noFrame]), entered, State.emptyFrame_of_held held',
    State.hostTurn_held held]

/-- Settles O51: a machine that is not Running is between frames. -/
theorem heldMachineChangesNothing : Obligations.HeldMachineChangesNothing := by
  intro s held notRunning
  have boundary : s.midFrame = false := by
    rw [← Bool.not_eq_true, State.midFrame_iff]
    exact fun inFrame => notRunning inFrame.1
  exact step_of_held boundary held

/-- After the host's turn a step latches nothing. -/
theorem keys_of_step_of_boundary {s t : State} (boundary : s.midFrame = false) (steps : step s = .next t) :
    t.keys = s.hostTurn.keys := by
  rcases step_of_boundary boundary steps with ⟨-, u, runs, rfl⟩ | ⟨-, rfl⟩
  · rw [State.endStep_keys, (stepFrame_of_instructionStep runs).keys]
  · exact State.emptyFrame_keys _

/-- Settles O52: only the host's turn latches keys, and only where it leaves the machine Running. -/
theorem keysAreLatchedWhereFrameOpens : Obligations.KeysAreLatchedWhereFrameOpens := by
  intro s t steps
  refine ⟨fun inFrame => ?_, fun boundary running => ?_, fun boundary held => ?_⟩
  · obtain ⟨u, runs, rfl⟩ := step_of_midFrame inFrame steps
    rw [State.endStep_keys, (stepFrame_of_instructionStep runs).keys]
  · rw [keys_of_step_of_boundary boundary steps, State.hostTurn_running running]
  · rw [keys_of_step_of_boundary boundary steps, State.hostTurn_held held]
    rfl

/-! ## The timer tick (R230) -/

theorem toNat_tickByte (b : Byte) : (tickByte b).toNat = b.toNat - 1 := by
  unfold tickByte
  split
  · subst_vars
    rfl
  · bv_omega

/-- Settles O53: the three ends of a step, told apart by the count that the instruction step kept. -/
theorem timersTickAfterLastStepOfFrame : Obligations.TimersTickAfterLastStepOfFrame := by
  refine ⟨fun s u t inFrame runs steps => ?_, toNat_tickByte⟩
  obtain ⟨u', runs', rfl⟩ := step_of_midFrame inFrame steps
  cases runs.symm.trans runs'
  have left_pos : s.frameLeft ≠ 0 := (s.midFrame_iff.mp inFrame).2
  rw [← (stepFrame_of_instructionStep runs).frameLeft] at left_pos ⊢
  rcases u.endStep_cases with ⟨faulted, ends⟩ | ⟨notFaulted, last, ends⟩ | ⟨notFaulted, more, ends⟩
  · rw [ends]
    exact ⟨fun ticks => absurd faulted ticks.2, fun _ => ⟨rfl, rfl⟩⟩
  · rw [ends]
    exact ⟨fun _ => ⟨rfl, rfl⟩, fun noTick => absurd ⟨by omega, notFaulted⟩ noTick⟩
  · rw [ends]
    exact ⟨fun ticks => absurd ticks.1 (by omega), fun _ => ⟨rfl, rfl⟩⟩

end Sys2Proof.Machine
end

section
/-! PROOF. The frame of spec/60_exceptions.md R232: a frame that waits for a key (R194), and the machine's steps taken together as
the spec's `Frame`. -/

open Sys2Proof.Claim

namespace Sys2Proof.Machine

/-! ## A frame that waits -/

theorem State.rewind_advance (s : State) : s.advance.rewind = s := by
  simp only [State.advance, State.rewind, State.setPc, BitVec.add_sub_cancel]

/-- FX0A with no key pressed is a step that changes nothing (R193, R194). -/
theorem instructionStep_of_waiting {s : State} {x : Nibble} (fetchable : s.pc.toNat ≤ 0x0FFE)
    (decodes : decodeWord s.fetchWord = .ok (.ldVxK x)) (released : ∀ k : Fin 16, s.keys[k] = false) :
    instructionStep s = .next s := by
  have noKey : lowestKey s.advance.keys = none := lowestKey_none.mpr released
  rw [instructionStep_decoded fetchable decodes, exec_ldVxK_of_none x noKey, State.rewind_advance]

theorem frameSteps_zero (s : State) : frameSteps 0 s = .next s.tick := rfl

theorem frameSteps_succ_of_faulted {s t : State} (runs : instructionStep s = .next t) (faulted : t.runState = .faulted)
    (n : Nat) : frameSteps (n + 1) s = .next t := by
  simp only [frameSteps, runs, if_pos faulted]

theorem frameSteps_succ_of_not_faulted {s t : State} (runs : instructionStep s = .next t)
    (notFaulted : t.runState ≠ .faulted) (n : Nat) : frameSteps (n + 1) s = frameSteps n t := by
  simp only [frameSteps, runs, if_neg notFaulted]

/-- A frame of steps that change nothing is a tick. -/
theorem frameSteps_of_fixed {s : State} (fixed : instructionStep s = .next s) (notFaulted : s.runState ≠ .faulted) (n : Nat) :
    frameSteps n s = .next s.tick := by
  induction n with
  | zero => exact frameSteps_zero s
  | succ n ih => rw [frameSteps_succ_of_not_faulted fixed notFaulted, ih]

theorem frame_of_running {s : State} (running : s.runState = .running) (keys : Vector Bool 16) :
    frame keys s = frameSteps (stepsPerFrame s.cfg) { s with keys := keys } := if_pos running

theorem frame_of_held {s : State} (held : s.runState ≠ .running) (keys : Vector Bool 16) : frame keys s = .next s :=
  if_neg held

/-- Settles O41: every step of the frame waits. -/
theorem waitingFrameStaysAtKeyWait : Obligations.WaitingFrameStaysAtKeyWait := by
  intro s keys x running fetchable decodes released
  have waits : instructionStep { s with keys := keys } = .next { s with keys := keys } :=
    instructionStep_of_waiting fetchable decodes released
  have notFaulted : ({ s with keys := keys } : State).runState ≠ .faulted := ne_of_eq_of_ne running (by decide)
  rw [frame_of_running running, frameSteps_of_fixed waits notFaulted]
  rfl

/-! ## The steps of a frame -/

/-- `s` with the controller's count replaced. -/
def State.withLeft (s : State) (n : Nat) : State := { s with frameLeft := n }

theorem State.withLeft_self {s : State} {n : Nat} (left : s.frameLeft = n) : s.withLeft n = s := by
  subst left
  rfl

theorem instructionStep_withController (s : State) (k n : Nat) (h : List HostTurn) :
    instructionStep (s.withController k n h) = mapNext (State.withController · k n h) (instructionStep s) := by
  by_cases fetchable : s.pc.toNat ≤ 0x0FFE
  · cases decoded : decodeWord s.fetchWord with
    | ok i =>
      rw [instructionStep_decoded fetchable decoded, ← exec_withController]
      exact instructionStep_decoded (s := s.withController k n h) fetchable decoded
    | error e =>
      rw [instructionStep_unrecognized fetchable decoded]
      exact instructionStep_unrecognized (s := s.withController k n h) fetchable decoded
  · have unfetchable : 0x0FFE < s.pc.toNat := Nat.lt_of_not_le fetchable
    rw [instructionStep_outOfBounds unfetchable]
    exact instructionStep_outOfBounds (s := s.withController k n h) unfetchable

/-- An instruction step does not see the controller's count (R37). -/
theorem instructionStep_withLeft {s t : State} (runs : instructionStep s = .next t) (n : Nat) :
    instructionStep (s.withLeft n) = .next (t.withLeft n) := by
  have frame := stepFrame_of_instructionStep runs
  calc instructionStep (s.withLeft n)
    _ = mapNext (State.withController · n s.turns s.host) (instructionStep s) :=
      instructionStep_withController s n s.turns s.host
    _ = .next (t.withController n t.turns t.host) := by rw [runs, mapNext_next, frame.turns, frame.host]

/-- A step of an open frame whose instruction step is known without the controller's count. -/
theorem step_withLeft {s t : State} {n : Nat} (running : s.runState = .running) (runs : instructionStep s = .next t) :
    step (s.withLeft (n + 1)) = .next (t.withLeft (n + 1)).endStep := by
  have inFrame : (s.withLeft (n + 1)).midFrame = true := (State.midFrame_iff _).mpr ⟨running, Nat.succ_ne_zero n⟩
  have entered := State.enterFrame_of_midFrame inFrame
  rw [step_in_frame (by rw [entered, inFrame]), entered, instructionStep_withLeft runs, mapNext_next]

theorem State.endStep_withLeft_of_faulted {t : State} (faulted : t.runState = .faulted) (n : Nat) :
    (t.withLeft n).endStep = t.withLeft 0 := if_pos faulted

theorem State.endStep_withLeft_one {t : State} (notFaulted : t.runState ≠ .faulted) :
    (t.withLeft 1).endStep = (t.withLeft 0).tick := if_neg notFaulted

theorem State.endStep_withLeft_succ {t : State} (notFaulted : t.runState ≠ .faulted) (n : Nat) :
    (t.withLeft (n + 2)).endStep = t.withLeft (n + 1) := if_neg notFaulted

theorem run_one_of_step {s t : State} (steps : step s = .next t) : Sys2Proof.core.run 1 s = .next t :=
  run_of_next Sys2Proof.core 0 steps

/-- A fault in the first step of the loop ends it, and so ends the machine's frame. -/
theorem run_one_eq_frameSteps_of_faulted {s t : State} (running : s.runState = .running) (closed : t.frameLeft = 0)
    (runs : instructionStep s = .next t) (faulted : t.runState = .faulted) (n : Nat) :
    Sys2Proof.core.run 1 (s.withLeft (n + 1)) = frameSteps (n + 1) s := by
  rw [run_one_of_step (step_withLeft running runs), frameSteps_succ_of_faulted runs faulted,
    State.endStep_withLeft_of_faulted faulted, State.withLeft_self closed]
  rfl

/-- The machine's steps with `n + 1` steps of a frame left are the spec's loop over them: one step for each `Step()` of the
loop, as many as run before a fault, and the tick in the last. -/
theorem run_eq_frameSteps (n : Nat) {s : State} (running : s.runState = .running) (closed : s.frameLeft = 0) :
    ∃ k, 1 ≤ k ∧ k ≤ n + 1 ∧ Sys2Proof.core.run k (s.withLeft (n + 1)) = frameSteps (n + 1) s := by
  induction n generalizing s with
  | zero =>
    obtain ⟨t, runs⟩ := instructionStep_total s
    have closed' : t.frameLeft = 0 := (stepFrame_of_instructionStep runs).frameLeft.trans closed
    refine ⟨1, le_rfl, le_rfl, ?_⟩
    by_cases faulted : t.runState = .faulted
    · exact run_one_eq_frameSteps_of_faulted running closed' runs faulted 0
    · rw [run_one_of_step (step_withLeft running runs), frameSteps_succ_of_not_faulted runs faulted,
        State.endStep_withLeft_one faulted, State.withLeft_self closed', frameSteps_zero]
      rfl
  | succ n ih =>
    obtain ⟨t, runs⟩ := instructionStep_total s
    have frame := stepFrame_of_instructionStep runs
    have closed' : t.frameLeft = 0 := frame.frameLeft.trans closed
    by_cases faulted : t.runState = .faulted
    · exact ⟨1, le_rfl, by omega, run_one_eq_frameSteps_of_faulted running closed' runs faulted (n + 1)⟩
    · have running' : t.runState = .running := by
        rcases frame.runState with ⟨kept, -⟩ | ⟨faults, -⟩
        · exact kept.trans running
        · exact absurd faults faulted
      obtain ⟨k, k_pos, k_le, loop⟩ := ih running' closed'
      refine ⟨k + 1, by omega, by omega, ?_⟩
      rw [run_of_next Sys2Proof.core k (step_withLeft running runs), State.endStep_withLeft_succ faulted, loop,
        frameSteps_succ_of_not_faulted runs faulted]

/-- The first step after a turn that opens a frame is the step the opened frame makes. -/
theorem step_eq_step_hostTurn {s : State} (boundary : s.midFrame = false) (opened : s.hostTurn.midFrame = true) :
    step s = step s.hostTurn := by
  have entered := State.enterFrame_of_boundary boundary
  have entered' := State.enterFrame_of_midFrame opened
  rw [step_in_frame (by rw [entered, opened]), step_in_frame (by rw [entered', opened]), entered, entered']

theorem run_congr_of_step_eq (M : Host.Core) {s t : M.State} (steps : M.step s = M.step t) {k : Nat} (k_pos : 1 ≤ k) :
    M.run k s = M.run k t := by
  cases k with
  | zero => cases k_pos
  | succ k => simp only [Host.Core.run, steps]

/-- `s` after the host's turn and the latch of its keys, before the steps of the frame are counted out (R233). -/
def State.latched (s : State) : State := { s.takeTurn with keys := s.nextTurn.keys }

theorem State.hostTurn_eq_latched_withLeft {s : State} (running : applyCommand s.nextTurn.cmd s.runState = .running) :
    s.hostTurn = s.latched.withLeft (stepsPerFrame s.cfg) := State.hostTurn_running running

theorem frame_eq_frameSteps_latched {s : State} (running : applyCommand s.nextTurn.cmd s.runState = .running) :
    frame s.nextTurn.keys s.takeTurn = frameSteps (stepsPerFrame s.cfg) s.latched :=
  frame_of_running (s := s.takeTurn) running s.nextTurn.keys

/-- D21: a frame of no steps is one step of the machine, which ticks. -/
theorem step_of_emptyFrame {s : State} (closed : s.frameLeft = 0) (boundary : s.midFrame = false)
    (running : applyCommand s.nextTurn.cmd s.runState = .running) (noSteps : stepsPerFrame s.cfg = 0) :
    step s = .next s.latched.tick := by
  have opens : s.hostTurn = s.latched := by
    rw [State.hostTurn_eq_latched_withLeft running, noSteps, State.withLeft_self (s := s.latched) closed]
  have noFrame : s.enterFrame.midFrame = false := by
    rw [State.enterFrame_of_boundary boundary, opens, ← Bool.not_eq_true, State.midFrame_iff]
    exact fun inFrame => inFrame.2 closed
  rw [step_without_instruction noFrame, State.enterFrame_of_boundary boundary, opens,
    State.emptyFrame_of_running (s := s.latched) running]

/-- Settles O54: the first of the steps takes the host's turn, which opens the frame that `frame` runs; a turn that opens no
frame, or one without steps, is one step. -/
theorem stepsOfFrameAreFrame : Obligations.StepsOfFrameAreFrame := by
  intro s closed
  have boundary : s.midFrame = false := by
    rw [← Bool.not_eq_true, State.midFrame_iff]
    exact fun inFrame => inFrame.2 closed
  by_cases running : applyCommand s.nextTurn.cmd s.runState = .running
  · rw [frame_eq_frameSteps_latched running]
    cases steps : stepsPerFrame s.cfg with
    | zero =>
      exact ⟨1, le_rfl, le_max_left .., run_one_of_step (step_of_emptyFrame closed boundary running steps)⟩
    | succ n =>
      obtain ⟨k, k_pos, k_le, loop⟩ := run_eq_frameSteps n (s := s.latched) running closed
      have opens := State.hostTurn_eq_latched_withLeft running
      have opened : s.hostTurn.midFrame = true := by
        rw [opens, steps, State.midFrame_iff]
        exact ⟨running, Nat.succ_ne_zero n⟩
      refine ⟨k, k_pos, le_max_of_le_right (k_le.trans_eq steps.symm), ?_⟩
      rw [run_congr_of_step_eq Sys2Proof.core (step_eq_step_hostTurn boundary opened) k_pos, opens, steps, loop]
  · refine ⟨1, le_rfl, le_max_left .., ?_⟩
    rw [run_one_of_step (step_of_held boundary running), frame_of_held (s := s.takeTurn) running]
    exact congrArg Host.Outcome.next (State.withLeft_self (s := s.takeTurn) closed)

end Sys2Proof.Machine
end

section
/-! PROOF. The invariant of the machine's states (spec/10_state.md; spec/60_exceptions.md section 5): each clause is kept by the
execute phase for a reason of its own, and the controller moves only the run state, the count, the keys and the timers. -/

open Sys2Proof.Claim

namespace Sys2Proof.Machine

/-- The valid entries of the stack are return addresses. -/
def State.ReturnsInRange (s : State) : Prop :=
  ∀ k : Fin 12, k.val < s.sp.val → 2 ≤ s.stack[k].toNat ∧ s.stack[k].toNat ≤ 0x1000

/-- The clauses of the invariant that an instruction step keeps, whatever the controller's count is. -/
structure State.EngineInv (s : State) : Prop where
  memCanonical : s.mem.wf = true
  faultedIff : s.runState = .faulted ↔ s.fault.code ≠ none
  faultBlank : s.fault.code = none → s.fault = .blank
  pcBound : s.pc.toNat ≤ 0x10FE
  returns : s.ReturnsInRange

theorem State.Inv.engineInv {s : State} (h : s.Inv) : s.EngineInv :=
  ⟨h.memCanonical, h.faultedIff, h.faultBlank, h.pcBound, h.returns⟩

/-! ## The execute phase, clause by clause -/

/-- Only FX33 and FX55 in range store, and they store inside memory. -/
theorem wf_of_exec {i : Instr} {s t : State} (canonical : s.mem.wf = true) (runs : exec i s = .next t) :
    t.mem.wf = true := by
  cases i
  case ldBVx x =>
    rcases exec_ldBVx_cases runs with ⟨inRange, rfl⟩ | rfl
    · exact State.wf_storeBytes canonical _ _ (State.decimalDigits_inside inRange _)
    · exact canonical
  case ldMemVx x =>
    rcases exec_ldMemVx_cases runs with ⟨inRange, rfl⟩ | rfl
    · exact State.wf_storeBytes canonical _ _ (State.regsUpTo_inside inRange)
    · exact canonical
  all_goals
    have mem_kept := (execFrame_of_exec runs).mem_kept (by simp [Instr.mnemonic])
    rwa [mem_kept]

/-- 2NNN pushes `A + 2`, and 00EE takes an entry off; nothing else writes the stack (R100, R102). -/
theorem returns_of_exec {i : Instr} {s t : State} (pc_pos : 2 ≤ s.pc.toNat) (pc_le : s.pc.toNat ≤ 0x1000)
    (returns : s.ReturnsInRange) (runs : exec i s = .next t) : t.ReturnsInRange := by
  cases i
  case ret x =>
    rcases exec_ret_cases runs with ⟨k, entry, rfl⟩ | rfl
    · have still_valid (j : Fin 12) (valid : j.val < k.val) : j.val < s.sp.val := by omega
      exact fun j valid => returns j (still_valid j valid)
    · exact returns
  case call nnn =>
    rcases exec_call_cases runs with ⟨room, rfl⟩ | rfl
    · intro j valid
      rw [State.called, Fin.getElem_fin, Vector.getElem_set]
      split
      · exact ⟨pc_pos, pc_le⟩
      · have older : j.val ≤ s.sp.val := Nat.le_of_lt_succ valid
        exact returns j (by omega)
    · exact returns
  all_goals
    obtain ⟨sp_kept, stack_kept⟩ := (execFrame_of_exec runs).stack_kept (by simp [Instr.mnemonic])
    rwa [State.ReturnsInRange, sp_kept, stack_kept]

theorem State.skipIf_pc_le {s : State} (pc_le : s.pc.toNat ≤ 0x1000) (c : Bool) :
    (s.skipIf c).pc.toNat ≤ 0x10FE := by
  rw [State.skipIf_pc]
  split
  · bv_omega
  · exact pc_le.trans (by decide)

/-- V0 + NNN does not wrap (R103, D6). -/
theorem toNat_indexedTarget (b : Byte) (nnn : Addr12) : (zext16 b + zext16 nnn).toNat = b.toNat + nnn.toNat := by
  rw [BitVec.toNat_add, toNat_zext16 b (by decide), toNat_zext16 nnn (by decide)]
  omega

/-- The largest PC is that of BNNN, 0xFF + 0xFFF (R29). -/
theorem pc_of_exec {i : Instr} {s t : State} (pc_pos : 2 ≤ s.pc.toNat) (pc_le : s.pc.toNat ≤ 0x1000)
    (returns : s.ReturnsInRange) (runs : exec i s = .next t) : t.pc.toNat ≤ 0x10FE := by
  cases i
  case ret x =>
    rcases exec_ret_cases runs with ⟨k, entry, rfl⟩ | rfl
    · exact (returns k (by omega)).2.trans (by decide)
    · exact pc_le.trans (by decide)
  case call nnn =>
    rcases exec_call_cases runs with ⟨room, rfl⟩ | rfl
    · rw [State.called, toNat_zext16 _ (by decide)]
      omega
    · exact pc_le.trans (by decide)
  case jp nnn =>
    cases runs
    rw [State.setPc_pc, toNat_zext16 _ (by decide)]
    omega
  case jpV0 nnn =>
    cases runs
    rw [State.setPc_pc, toNat_indexedTarget]
    omega
  case seImm | sneImm | seReg | sneReg =>
    cases runs
    exact State.skipIf_pc_le pc_le _
  case skp x =>
    rcases exec_skp_cases runs with ⟨k, rfl⟩ | rfl
    · exact State.skipIf_pc_le pc_le _
    · exact pc_le.trans (by decide)
  case sknp x =>
    rcases exec_sknp_cases runs with ⟨k, rfl⟩ | rfl
    · exact State.skipIf_pc_le pc_le _
    · exact pc_le.trans (by decide)
  case ldVxK x =>
    rcases exec_ldVxK_cases runs with ⟨k, rfl⟩ | rfl
    · exact pc_le.trans (by decide)
    · rw [State.rewind_pc]
      bv_omega
  all_goals
    have pc_kept := (execFrame_of_exec runs).pc_kept (by simp [Instr.mnemonic])
    rw [pc_kept]
    exact pc_le.trans (by decide)

/-! ## The instruction step -/

/-- The state in which the execute phase starts (R92): `A` was at most 0x0FFE. -/
theorem State.EngineInv.advance {s : State} (h : s.EngineInv) (fetchable : s.pc.toNat ≤ 0x0FFE) : s.advance.EngineInv := by
  refine ⟨h.memCanonical, h.faultedIff, h.faultBlank, ?_, h.returns⟩
  rw [State.advance_pc_toNat fetchable]
  omega

theorem State.EngineInv.exec {i : Instr} {s t : State} (h : s.EngineInv) (pc_pos : 2 ≤ s.pc.toNat)
    (pc_le : s.pc.toNat ≤ 0x1000) (runs : Machine.exec i s = .next t) : t.EngineInv := by
  refine ⟨wf_of_exec h.memCanonical runs, ?_, ?_, pc_of_exec pc_pos pc_le h.returns runs,
    returns_of_exec pc_pos pc_le h.returns runs⟩
  all_goals rcases keptOrFaulted_of_exec runs with ⟨runState_kept, fault_kept⟩ | ⟨faulted, code⟩
  · rw [runState_kept, fault_kept]
    exact h.faultedIff
  · exact iff_of_true faulted code
  · rw [fault_kept]
    exact h.faultBlank
  · exact fun noCode => absurd noCode code

theorem State.EngineInv.instructionStep {s u : State} (h : s.EngineInv) (runs : instructionStep s = .next u) :
    u.EngineInv := by
  rcases instructionStep_cases s with ⟨-, faults⟩ | ⟨fetchable, advances⟩ | ⟨i, fetchable, -, executes⟩
  · cases faults.symm.trans runs
    exact ⟨h.memCanonical, iff_of_true rfl (Option.some_ne_none _), nofun, h.pcBound, h.returns⟩
  · cases advances.symm.trans runs
    exact h.advance fetchable
  · have pc_next := State.advance_pc_toNat fetchable
    exact (h.advance fetchable).exec (by omega) (by omega) (executes.symm.trans runs)

/-! ## The controller -/

/-- The host's turn changes the run state by the table, which neither enters nor leaves Faulted, and opens the frame only where
the machine is Running. -/
theorem State.Inv.hostTurn {s : State} (h : s.Inv) : s.hostTurn.Inv := by
  have faultedIff : applyCommand s.nextTurn.cmd s.runState = .faulted ↔ s.fault.code ≠ none :=
    (applyCommand_eq_faulted_iff _ _).trans h.faultedIff
  by_cases running : applyCommand s.nextTurn.cmd s.runState = .running
  · rw [State.hostTurn_running running]
    exact ⟨h.memCanonical, faultedIff, h.faultBlank, fun _ => running, le_rfl, h.pcBound, h.returns⟩
  · rw [State.hostTurn_held running]
    exact ⟨h.memCanonical, faultedIff, h.faultBlank, fun inFrame => absurd rfl inFrame, Nat.zero_le _, h.pcBound, h.returns⟩

theorem State.Inv.enterFrame {s : State} (h : s.Inv) : s.enterFrame.Inv := by
  unfold State.enterFrame
  split
  · exact h
  · exact h.hostTurn

theorem State.Inv.tick {s : State} (h : s.Inv) : s.tick.Inv :=
  ⟨h.memCanonical, h.faultedIff, h.faultBlank, h.frameRunning, h.frameBound, h.pcBound, h.returns⟩

theorem State.Inv.emptyFrame {s : State} (h : s.Inv) : s.emptyFrame.Inv := by
  unfold State.emptyFrame
  split
  · exact h.tick
  · exact h

/-- After an instruction step the count goes to 0 on a fault and on the last step, and down by 1 otherwise. -/
theorem State.EngineInv.endStep {u : State} (h : u.EngineInv) (runState : u.runState = .running ∨ u.runState = .faulted)
    (bound : u.frameLeft ≤ stepsPerFrame u.cfg) : u.endStep.Inv := by
  rcases u.endStep_cases with ⟨-, ends⟩ | ⟨-, -, ends⟩ | ⟨notFaulted, -, ends⟩
  · rw [ends]
    exact ⟨h.memCanonical, h.faultedIff, h.faultBlank, fun inFrame => absurd rfl inFrame, Nat.zero_le _, h.pcBound, h.returns⟩
  · rw [ends]
    exact ⟨h.memCanonical, h.faultedIff, h.faultBlank, fun inFrame => absurd rfl inFrame, Nat.zero_le _, h.pcBound, h.returns⟩
  · rw [ends]
    exact ⟨h.memCanonical, h.faultedIff, h.faultBlank, fun _ => runState.resolve_right notFaulted,
      (Nat.sub_le _ _).trans bound, h.pcBound, h.returns⟩

/-- Settles O60: the state in which the step is taken has the invariant, an instruction step keeps the clauses of the engine, and
the end of the step restores those of the frame. -/
theorem everyStepKeepsInvariant : Obligations.EveryStepKeepsInvariant := by
  intro s t inv steps
  have entered := inv.enterFrame
  rcases step_next_cases steps with ⟨inFrame, u, runs, rfl⟩ | ⟨-, rfl⟩
  · have frame := stepFrame_of_instructionStep runs
    refine (entered.engineInv.instructionStep runs).endStep ?_ ?_
    · exact (runState_of_instructionStep inFrame runs).imp_right And.left
    · rw [frame.frameLeft, frame.cfg]
      exact entered.frameBound
  · exact entered.emptyFrame

/-- Settles O58: the reset state lists no memory, no fault and no stack entry, and no frame is open. -/
theorem resetMeetsInvariant : Obligations.ResetMeetsInvariant :=
  ⟨Memory.wf_nil, by decide, fun _ => rfl, by decide, by decide, by decide, nofun⟩

end Sys2Proof.Machine
end

section
/-! PROOF. The memory that reset fills (spec/70_reset_and_hazards.md R250 to R252): FONT, then the ROM, over zeros. -/

namespace Sys2Proof.Machine

/-- Above the font an unlisted byte is 0x00 (R59). -/
theorem Memory.initial_of_le {a : Nat} (h : 80 ≤ a) : Memory.initial a = 0#8 :=
  List.getD_eq_default _ _ h

section
variable (font : Vector Byte 80) {rom : List Byte} (fits : rom.length ≤ 3584)

theorem wf_fontMemory : (Memory.writeList [] 0 font.toList).wf = true :=
  Memory.wf_writeList Memory.wf_nil (by simp)

theorem read_fontMemory (a : Nat) : (Memory.writeList [] 0 font.toList).read a = font.toList.getD a (Memory.initial a) := by
  rw [Memory.read_writeList Memory.wf_nil _ _ (by simp), if_pos (Nat.zero_le a), Nat.sub_zero, Memory.read_nil]

theorem read_fontMemory_of_le {a : Nat} (h : 80 ≤ a) : (Memory.writeList [] 0 font.toList).read a = 0#8 := by
  rw [read_fontMemory, List.getD_eq_default _ _ (by simpa using h), Memory.initial_of_le h]

include fits

theorem wf_bootMemory : (bootMemory font rom).wf = true :=
  Memory.wf_writeList (wf_fontMemory font) (by omega)

theorem read_bootMemory_below {a : Nat} (below : a < 0x200) :
    (bootMemory font rom).read a = font.toList.getD a (Memory.initial a) := by
  rw [bootMemory, Memory.read_writeList (wf_fontMemory font) _ _ (by omega), if_neg (by omega), read_fontMemory]

theorem read_bootMemory_rom {a : Nat} (above : 0x200 ≤ a) : (bootMemory font rom).read a = rom.getD (a - 0x200) 0#8 := by
  rw [bootMemory, Memory.read_writeList (wf_fontMemory font) _ _ (by omega), if_pos above,
    read_fontMemory_of_le font (by omega)]

end

/-- A machine that reset makes is the reset state with its configuration and memory, and its ROM fits. -/
theorem boot_eq_ok {cfg : Config} {font : Vector Byte 80} {rom : List Byte} {s : State} (boots : boot cfg font rom = .ok s) :
    rom.length ≤ 3584 ∧ s = { State.reset with cfg := cfg, mem := bootMemory font rom } := by
  by_cases fits : rom.length ≤ 3584
  · cases (boot_of_romFits fits).symm.trans boots
    exact ⟨fits, rfl⟩
  · cases (boot_of_romTooLarge (Nat.lt_of_not_le fits)).symm.trans boots

/-- Settles O57: the three ranges of addresses, by what `bootMemory` reads in each. -/
theorem bootInstallsFontAndRom : Obligations.BootInstallsFontAndRom := by
  intro cfg font rom s boots
  obtain ⟨fits, rfl⟩ := boot_eq_ok boots
  refine ⟨fun a => ?_, fun a above below => ?_, fun a above => read_bootMemory_rom font fits above, rfl⟩
  · refine (read_bootMemory_below font fits (by omega)).trans ?_
    simp
  · refine (read_bootMemory_below font fits below).trans ?_
    rw [← read_fontMemory, read_fontMemory_of_le font above]

/-- Settles O59: only the memory and the configuration differ from the reset state, and no frame is open. -/
theorem bootedMachineMeetsInvariant : Obligations.BootedMachineMeetsInvariant := by
  intro cfg font rom s boots
  obtain ⟨fits, rfl⟩ := boot_eq_ok boots
  have atReset := resetMeetsInvariant
  exact ⟨wf_bootMemory font fits, atReset.faultedIff, atReset.faultBlank, atReset.frameRunning, Nat.zero_le _,
    atReset.pcBound, atReset.returns⟩

/-- Settles O55: the fields as `State.reset` writes them, and memory that lists nothing. -/
theorem resetValues : Obligations.ResetValues := by
  refine ⟨rfl, Framebuffer.pixel_clear, ?v, rfl, rfl, ?stack, rfl, rfl, ?keys, rfl, rfl, rfl, ?font, ?zeros⟩
  case v => exact fun x => Vector.getElem_replicate _
  case stack => exact fun k => Vector.getElem_replicate _
  case keys => exact fun k => Vector.getElem_replicate _
  case font => exact fun k _ => Memory.read_nil k
  case zeros => exact fun a above => (Memory.read_nil a).trans (Memory.initial_of_le above)

end Sys2Proof.Machine
end

section
/-! PROOF. Control transfer and skips (spec/41_control_transfer.md, spec/42_skips.md), stated at the start of the execute phase:
each instruction is one update of PC, with the call stack beside it for 2NNN and 00EE. -/

open Sys2Proof.Claim

namespace Sys2Proof.Machine

/-- Settles O12: one update of PC, to NNN widened to 16 bits. -/
theorem jumpSetsPcToAddress : Obligations.JumpSetsPcToAddress := by
  intro s nnn
  exact ⟨decodeWord_encode (.jp nnn), s.setPc (zext16 nnn), rfl, toNat_zext16 nnn (by decide), rfl⟩

/-- Settles O13: the sum is at most 0x10FE, so no mask is missing. -/
theorem indexedJumpAddsV0 : Obligations.IndexedJumpAddsV0 := by
  intro s nnn
  exact ⟨decodeWord_encode (.jpV0 nnn), s.setPc (zext16 (s.getV 0#4) + zext16 nnn), rfl, toNat_indexedTarget _ nnn, rfl⟩

/-- Settles O14: the push of R102, and its fault on a full stack. -/
theorem callPushesReturnAddress : Obligations.CallPushesReturnAddress := by
  intro s nnn
  refine ⟨fun room => ?_, fun full => ?_⟩
  · have others_kept (k : Fin 12) (other : k.val ≠ s.sp.val) : (s.called nnn room).stack[k] = s.stack[k] :=
      Vector.getElem_set_ne room k.isLt (Ne.symm other)
    exact ⟨_, exec_call_of_lt nnn room, toNat_zext16 nnn (by decide), rfl, Vector.getElem_set_self _, others_kept, rfl⟩
  · exact ⟨_, (call_followsFaultTable nnn s).1 _ _ (if_pos full), rfl⟩

/-- Settles O15: the pop of R100, and its fault on an empty stack. -/
theorem returnPopsIntoPc : Obligations.ReturnPopsIntoPc := by
  intro s x
  refine ⟨fun k entry => ?_, fun empty => ?_⟩
  · exact ⟨_, exec_ret_of_succ x k entry, rfl, rfl, rfl⟩
  · exact ⟨_, (ret_followsFaultTable x s).1 _ _ (if_pos empty), rfl⟩

/-- Settles O16: the entry that 00EE pops is the one that 2NNN pushed. -/
theorem callThenReturnResumesAfterCall : Obligations.CallThenReturnResumesAfterCall := by
  intro s t u nnn x room calls same_stack same_sp
  cases (exec_call_of_lt nnn room).symm.trans calls
  have entry : u.sp.val = (⟨s.sp.val, room⟩ : Fin 12).val + 1 := congrArg Fin.val same_sp
  have popped : u.stack[s.sp.val] = s.pc := by
    rw [same_stack]
    exact Vector.getElem_set_self _
  exact ⟨_, exec_ret_of_succ x _ entry, popped, rfl⟩

/-! ## Skips -/

/-- `Skip()` (R114). -/
theorem State.skipIf_of_true {s : State} {c : Bool} (h : c = true) : s.skipIf c = { s with pc := s.pc + 2#16 } := by
  rw [h]
  rfl

theorem State.skipIf_of_false {s : State} {c : Bool} (h : c = false) : s.skipIf c = s := by
  rw [h]
  rfl

/-- A pair of opposite skips by the comparison of two bytes. -/
theorem exec_skips_of_compare {eqSkip neSkip : Instr} {s : State} {a b : Byte}
    (eqSkips : exec eqSkip s = .next (s.skipIf (a == b))) (neSkips : exec neSkip s = .next (s.skipIf (a != b))) :
    (a.toNat = b.toNat → exec eqSkip s = .next { s with pc := s.pc + 2#16 } ∧ exec neSkip s = .next s) ∧
    (a.toNat ≠ b.toNat → exec eqSkip s = .next s ∧ exec neSkip s = .next { s with pc := s.pc + 2#16 }) := by
  rw [eqSkips, neSkips]
  refine ⟨fun equal => ?_, fun different => ?_⟩
  · obtain rfl := BitVec.eq_of_toNat_eq equal
    rw [State.skipIf_of_true (beq_self_eq_true a), State.skipIf_of_false (bne_self_eq_false a)]
    exact ⟨rfl, rfl⟩
  · have a_ne_b : a ≠ b := fun equal => different (congrArg BitVec.toNat equal)
    rw [State.skipIf_of_false (beq_false_of_ne a_ne_b), State.skipIf_of_true (bne_iff_ne.mpr a_ne_b)]
    exact ⟨rfl, rfl⟩

/-- Settles O17: VX against NN. -/
theorem immediateSkipsCompareVx : Obligations.ImmediateSkipsCompareVx := by
  intro s x nn
  exact ⟨decodeWord_encode (.seImm x nn), decodeWord_encode (.sneImm x nn), exec_skips_of_compare rfl rfl⟩

/-- Settles O18: VX against VY, with N in the word and not read. -/
theorem registerSkipsCompareVxVy : Obligations.RegisterSkipsCompareVxVy := by
  intro s x y n
  exact ⟨decodeWord_encode (.seReg x y n), decodeWord_encode (.sneReg x y n), exec_skips_of_compare rfl rfl⟩

end Sys2Proof.Machine
end

section
/-! PROOF. Register arithmetic and logic (spec/43_alu.md R122 to R134): one write of VX, or the flag and then VX. -/

open Sys2Proof.Claim

namespace Sys2Proof.Machine

/-- Settles O21: each result is the bitwise operation of the two bytes, and one write of VX. -/
theorem logicCombinesBitsWithoutFlag : Obligations.LogicCombinesBitsWithoutFlag := by
  intro s x y
  refine ⟨⟨_, rfl, fun k => ?_, State.getV_vf_setV s _⟩, ⟨_, rfl, fun k => ?_, State.getV_vf_setV s _⟩,
    ⟨_, rfl, fun k => ?_, State.getV_vf_setV s _⟩⟩
  · rw [State.getV_setV_same, BitVec.getLsbD_or]
  · rw [State.getV_setV_same, BitVec.getLsbD_and]
  · rw [State.getV_setV_same, BitVec.getLsbD_xor]

/-- R96: the flag is written before the result, so it stays unless X = 0xF. -/
theorem flagAndResult_of_exec {i : Instr} {s : State} {x : Nibble} {f : Bool} {b : Byte} {flag : Prop} {result : Nat}
    (runs : exec i s = .next (s.setFlagThenV f x b)) (is_flag : f = true ↔ flag) (is_result : b.toNat = result) :
    FlagAndResult i s x flag result := by
  refine ⟨_, runs, ?_, fun x_ne_vf => ?_⟩
  · rw [State.getV_setFlagThenV, if_pos rfl, is_result]
  · rw [State.getV_setFlagThenV, if_neg (Ne.symm x_ne_vf), if_pos rfl, ← is_flag, flagByte]
    exact ⟨fun set => if_pos set, fun clear => if_neg clear⟩

/-- Settles O22: the carry is the comparison of the sum with 255. -/
theorem addRegistersWithCarry : Obligations.AddRegistersWithCarry := by
  intro s x y
  exact flagAndResult_of_exec rfl decide_eq_true_iff (BitVec.toNat_add _ _)

theorem toNat_sub_byte (a b : Byte) : (a - b).toNat = (a.toNat + 256 - b.toNat) % 256 := by
  rw [BitVec.toNat_sub]
  omega

/-- Settles O23: NOT borrow is the comparison of the operands. -/
theorem subtractsWithNotBorrow : Obligations.SubtractsWithNotBorrow := by
  intro s x y
  exact ⟨flagAndResult_of_exec rfl decide_eq_true_iff (toNat_sub_byte _ _),
    flagAndResult_of_exec rfl decide_eq_true_iff (toNat_sub_byte _ _)⟩

theorem shiftedOutRight_iff (a : Byte) : shiftedOutRight a = true ↔ a.toNat % 2 = 1 := by
  rw [shiftedOutRight, BitVec.getLsbD, Nat.testBit_zero, decide_eq_true_iff]

theorem shiftedOutLeft_iff (a : Byte) : shiftedOutLeft a = true ↔ 128 ≤ a.toNat := by
  rw [shiftedOutLeft, BitVec.getLsbD, Nat.testBit_eq_decide_div_mod_eq, decide_eq_true_iff]
  omega

/-- Settles O24: a shift by one bit halves or doubles the byte, and the bit moved out is its lowest or its highest. -/
theorem shiftsMoveOneBitIntoFlag : Obligations.ShiftsMoveOneBitIntoFlag := by
  intro s x y
  refine ⟨flagAndResult_of_exec rfl (shiftedOutRight_iff _) ?_, flagAndResult_of_exec rfl (shiftedOutLeft_iff _) ?_⟩
  · rw [BitVec.toNat_ushiftRight, Nat.shiftRight_eq_div_pow, Nat.pow_one]
  · rw [BitVec.toNat_shiftLeft, Nat.shiftLeft_eq, Nat.pow_one]

theorem State.randomByte_of_cons {s : State} {b : Byte} {rest : List Byte} (injected : s.rnd = b :: rest) :
    s.randomByte = b := by
  rw [State.randomByte, injected, List.headD_cons]

/-- Settles O25: one draw, then one write of VX. -/
theorem randomByteIsMaskedByNN : Obligations.RandomByteIsMaskedByNN := by
  intro s x nn b rest
  refine ⟨⟨_, rfl, State.getV_setV_same _ x _, rfl⟩, fun injected => ⟨_, rfl, ?_, ?_⟩⟩
  · rw [State.getV_setV_same, State.randomByte_of_cons injected]
  · rw [State.setV_rnd, State.drawn_rnd, injected, List.tail_cons]

end Sys2Proof.Machine
end

section
/-! PROOF. The index register, the display clear, the keypad and the timers (spec/44_index_memory.md R150 to R152;
spec/45_display.md R170; spec/46_keypad_timers.md R190 to R197). -/

open Sys2Proof.Claim

namespace Sys2Proof.Machine

/-- Settles O26: one update of I, to NNN widened to 16 bits. -/
theorem loadIndexWritesAddress : Obligations.LoadIndexWritesAddress := by
  intro s nnn
  exact ⟨decodeWord_encode (.ldI nnn), s.setI (zext16 nnn), rfl, toNat_zext16 nnn (by decide), rfl⟩

/-- Settles O27: the sum of two 16-bit words. -/
theorem addToIndexWrapsAt16Bits : Obligations.AddToIndexWrapsAt16Bits := by
  intro s x
  refine ⟨s.setI (s.i + zext16 (s.getV x)), rfl, ?_, rfl⟩
  rw [State.setI_i, BitVec.toNat_add, toNat_zext16 _ (by decide)]

theorem toNat_glyphAddress (b : Byte) : (glyphAddress b).toNat = b.toNat * 5 := by
  rw [glyphAddress, BitVec.toNat_mul, toNat_zext16 b (by decide), BitVec.toNat_ofNat]
  omega

/-- Settles O28: 255 * 5 does not wrap. -/
theorem fontAddressIsFiveTimesVx : Obligations.FontAddressIsFiveTimesVx := by
  intro s x
  exact ⟨decodeWord_encode (.ldFVx x), s.setI (glyphAddress (s.getV x)), rfl, toNat_glyphAddress _, rfl⟩

/-- Settles O34: 0XE0 is the word of CLS for every X, and the framebuffer becomes the clear one. -/
theorem clearTurnsEveryPixelOff : Obligations.ClearTurnsEveryPixelOff := by
  intro s x
  exact ⟨decodeWord_encode (.cls x), { s with fb := Framebuffer.clear }, rfl, Framebuffer.pixel_clear, rfl⟩

/-- Settles O38: the key check of R192, then the skip by the latched key. -/
theorem keySkipsReadLatchedKey : Obligations.KeySkipsReadLatchedKey := by
  intro s x
  refine ⟨fun k isKey pressed => ?_, fun k isKey released => ?_, fun above => ?_⟩
  · have key := keyIndex_some.mpr isKey
    rw [exec_skp_of_key key, exec_sknp_of_key key, pressed]
    exact ⟨rfl, rfl⟩
  · have key := keyIndex_some.mpr isKey
    rw [exec_skp_of_key key, exec_sknp_of_key key, released]
    exact ⟨rfl, rfl⟩
  · exact ⟨⟨_, (exec_followsFaultTable (.skp x) s).1 _ _ (if_pos above), rfl⟩,
      ⟨_, (exec_followsFaultTable (.sknp x) s).1 _ _ (if_pos above), rfl⟩⟩

/-- Settles O39: `lowestKey` is the key the statement names. -/
theorem keyWaitTakesLowestPressedKey : Obligations.KeyWaitTakesLowestPressedKey := by
  intro s x
  refine ⟨fun k pressed lowest => ?_, fun released => exec_ldVxK_of_none x (lowestKey_none.mpr released)⟩
  have takes := exec_ldVxK_of_some x (lowestKey_some.mpr ⟨pressed, lowest⟩)
  refine ⟨_, takes, ?_, fun r r_ne_x => State.getV_setV_ne s _ r_ne_x, rfl⟩
  rw [State.getV_setV_same, BitVec.toNat_ofNat]
  omega

theorem State.soundActive_iff (s : State) : s.soundActive = true ↔ 0 < s.st.toNat := by
  rw [State.soundActive, bne_iff_ne, Nat.pos_iff_ne_zero, ne_eq, ne_eq, BitVec.toNat_eq]
  rfl

/-- Settles O40: one write of VX, DT or ST. -/
theorem timerInstructionsMoveVx : Obligations.TimerInstructionsMoveVx := by
  intro s x
  exact ⟨⟨s.setV x s.dt, rfl, State.getV_setV_same s x s.dt, rfl⟩, ⟨s.setDt (s.getV x), rfl, rfl⟩,
    ⟨s.setSt (s.getV x), rfl, rfl, State.soundActive_iff _⟩⟩

end Sys2Proof.Machine
end

section
/-! PROOF. Memory transfers (spec/44_index_memory.md R155 to R157): FX33 and FX55 store a list of bytes at I, FX65 loads one. -/

open Sys2Proof.Claim

namespace Sys2Proof.Machine

/-! ## The bytes a store leaves -/

/-- In range, byte `k` of the stored list is at `a + k`. -/
theorem State.byteAt_storeBytes_add {s : State} (canonical : s.mem.wf = true) {a : Nat} {bs : List Byte}
    (inside : a + bs.length ≤ 0x1000) (k : Nat) : (s.storeBytes a bs).byteAt (a + k) = bs.getD k (s.byteAt (a + k)) := by
  rw [State.byteAt_storeBytes canonical a bs inside, if_pos (Nat.le_add_right a k), Nat.add_sub_cancel_left]

/-- D5: addresses are over the naturals. -/
theorem State.ea_eq_add (s : State) (k : Nat) : s.ea k = s.ea 0 + k := rfl

/-- The three digits of a byte: the first is its hundreds, and the others are decimal digits. -/
theorem decimalDigits_spec (b : Byte) : ∃ h t o : Byte, decimalDigits b = [h, t, o] ∧
    h.toNat * 100 + t.toNat * 10 + o.toNat = b.toNat ∧ t.toNat ≤ 9 ∧ o.toNat ≤ 9 := by
  refine ⟨_, _, _, rfl, ?_⟩
  simp only [BitVec.toNat_ofNat]
  omega

/-- Settles O29: the digits, as FX33 stores them. -/
theorem decimalDigitsAreStoredAtIndex : Obligations.DecimalDigitsAreStoredAtIndex := by
  intro s x canonical inRange
  obtain ⟨h, t, o, digits, value, t_le, o_le⟩ := decimalDigits_spec (s.getV x)
  have inside := State.decimalDigits_inside inRange (s.getV x)
  have runs := exec_ldBVx_of_inRange (x := x) inRange
  rw [digits] at inside runs
  have stored := State.byteAt_storeBytes_add canonical inside
  have stored_h : (s.storeBytes (s.ea 0) [h, t, o]).byteAt (s.ea 0) = h := stored 0
  have stored_t : (s.storeBytes (s.ea 0) [h, t, o]).byteAt (s.ea 1) = t := stored 1
  have stored_o : (s.storeBytes (s.ea 0) [h, t, o]).byteAt (s.ea 2) = o := stored 2
  refine ⟨_, runs, ?_, ?_, ?_, fun b outside => ?_, rfl⟩
  · rwa [stored_h, stored_t, stored_o]
  · rwa [stored_t]
  · rwa [stored_o]
  · exact State.byteAt_storeBytes_outside canonical inside outside

/-- What FX55 leaves in memory: V0..VX at I..I + X (R156). -/
theorem byteAt_of_ldMemVx {s t : State} {x : Nibble} (canonical : s.mem.wf = true)
    (inRange : s.i.toNat + x.toNat ≤ 0x0FFF) (runs : exec (.ldMemVx x) s = .next t) {k : Nibble}
    (stored : k.toNat ≤ x.toNat) : t.byteAt (s.ea k.toNat) = s.getV k := by
  cases (exec_ldMemVx_of_inRange inRange).symm.trans runs
  rw [s.ea_eq_add k.toNat, State.byteAt_storeBytes_add canonical (State.regsUpTo_inside inRange),
    State.getD_regsUpTo s x k stored]

/-- What FX65 leaves in the registers: the bytes at I..I + X in V0..VX (R157). -/
theorem getV_of_ldVxMem {s t : State} {x : Nibble} (inRange : s.i.toNat + x.toNat ≤ 0x0FFF)
    (runs : exec (.ldVxMem x) s = .next t) {k : Nibble} (loaded : k.toNat ≤ x.toNat) : t.getV k = s.byteAt (s.ea k.toNat) := by
  cases (exec_ldVxMem_of_inRange inRange).symm.trans runs
  rw [State.getV_setVs_loadBytes, if_pos (Nat.lt_succ_of_le loaded), ← State.ea_eq_add]

/-- Settles O30: the stored bytes, and none outside them. -/
theorem registersAreStoredAtIndex : Obligations.RegistersAreStoredAtIndex := by
  intro s x canonical inRange
  have runs := exec_ldMemVx_of_inRange inRange
  refine ⟨_, runs, fun k stored => byteAt_of_ldMemVx canonical inRange runs stored, fun b outside => ?_, rfl⟩
  exact State.byteAt_storeBytes_outside canonical (State.regsUpTo_inside inRange) (by rwa [State.length_regsUpTo])

/-- Settles O31: the loaded registers, and none above them. -/
theorem registersAreLoadedFromIndex : Obligations.RegistersAreLoadedFromIndex := by
  intro s x inRange
  have runs := exec_ldVxMem_of_inRange inRange
  refine ⟨_, runs, fun k loaded => getV_of_ldVxMem inRange runs loaded, fun k above => ?_, fun a => ?_, ?_⟩
  · exact getV_of_exec runs (Nat.not_le.mpr above)
  · exact State.byteAt_congr (State.setVs_mem _ _) a
  · simp only [State.setVs]

/-- Settles O32: what FX65 reads at I + k is what FX55 stored there. -/
theorem storedRegistersLoadBack : Obligations.StoredRegistersLoadBack := by
  intro s t u x canonical inRange stores same_mem same_i
  have inRange' : u.i.toNat + x.toNat ≤ 0x0FFF := by rwa [same_i]
  have loads := exec_ldVxMem_of_inRange inRange'
  refine ⟨_, loads, fun k stored => ?_⟩
  have same_ea : u.ea k.toNat = s.ea k.toNat := by rw [State.ea, State.ea, same_i]
  rw [getV_of_ldVxMem inRange' loads stored, State.byteAt_congr same_mem, same_ea,
    byteAt_of_ldMemVx canonical inRange stores stored]

/-- Settles O33: the two bytes that a fetch reads are two neighbouring registers. -/
theorem storedBytesAreFetchedAsCode : Obligations.StoredBytesAreFetchedAsCode := by
  intro s t u x k l canonical inRange stores l_next l_le same_mem at_k
  have high : u.byteAt u.pc.toNat = s.getV k := by
    rw [State.byteAt_congr same_mem, at_k]
    exact byteAt_of_ldMemVx canonical inRange stores (by omega)
  have low : u.byteAt (u.pc.toNat + 1) = s.getV l := by
    rw [State.byteAt_congr same_mem, at_k, Nat.add_assoc, ← l_next]
    exact byteAt_of_ldMemVx canonical inRange stores l_le
  rw [State.fetchWord, toNat_wordOfBytes, high, low]

/-! ## A word placed for the next fetch (log entry 27) -/

/-- `s` with its PC moved to 0x200 where the fetch would fault. -/
def State.atFetchable (s : State) : State := if s.canFetch then s else s.setPc 0x200#16

/-- `s` with a frame of at least one step open. -/
def State.frameOpened (s : State) : State :=
  if s.midFrame then s else { s with runState := .running, frameLeft := max 1 (stepsPerFrame s.cfg) }

theorem State.readyToFetch_eq (s : State) : s.readyToFetch = s.atFetchable.frameOpened := rfl

theorem State.atFetchable_mem (s : State) : s.atFetchable.mem = s.mem := by
  unfold State.atFetchable
  split <;> rfl

theorem State.atFetchable_pc_le (s : State) : s.atFetchable.pc.toNat ≤ 0x0FFE := by
  unfold State.atFetchable
  split
  · exact s.canFetch_iff.mp ‹_›
  · exact of_decide_eq_true rfl

theorem State.frameOpened_mem (s : State) : s.frameOpened.mem = s.mem := by
  unfold State.frameOpened
  split <;> rfl

theorem State.frameOpened_pc (s : State) : s.frameOpened.pc = s.pc := by
  unfold State.frameOpened
  split <;> rfl

theorem State.frameOpened_midFrame (s : State) : s.frameOpened.midFrame = true := by
  unfold State.frameOpened
  split
  · assumption
  · exact (State.midFrame_iff _).mpr ⟨rfl, Nat.ne_of_gt (le_max_left 1 _)⟩

/-- Settles O11: the two stored bytes are those that the next fetch reads. -/
theorem placedWordIsFetchedNext : Obligations.PlacedWordIsFetchedNext := by
  intro s w canonical w_lt
  have inFrame : (s.withFetchWord 16 w).midFrame = true := s.atFetchable.frameOpened_midFrame
  have pc_le : s.readyToFetch.pc.toNat ≤ 0x0FFE := by
    rw [State.readyToFetch_eq, State.frameOpened_pc]
    exact s.atFetchable_pc_le
  refine ⟨State.enterFrame_of_midFrame inFrame, inFrame, pc_le, ?_⟩
  have canonical' : s.readyToFetch.mem.wf = true := by
    rwa [State.readyToFetch_eq, State.frameOpened_mem, State.atFetchable_mem]
  have inside : s.readyToFetch.pc.toNat + (bytesOfWord (.ofNat 16 (w % 2 ^ 16))).length ≤ 0x1000 := by
    rw [bytesOfWord, List.length_cons, List.length_singleton]
    omega
  have stored := State.byteAt_storeBytes_add canonical' inside
  have word : (s.withFetchWord 16 w).fetchWord = .ofNat 16 (w % 2 ^ 16) :=
    (congrArg₂ wordOfBytes (stored 0) (stored 1)).trans (wordOfBytes_bytesOfWord _)
  rw [word, BitVec.toNat_ofNat, Nat.mod_mod]
  exact Nat.mod_eq_of_lt w_lt

end Sys2Proof.Machine
end

section
/-! PROOF. DXYN (spec/45_display.md R172 to R176): the sprite the model draws is the sprite of the statements, so
`State.drawSprite_spec` says which pixels are inverted and when VF is set. -/

open Sys2Proof.Claim

namespace Sys2Proof.Machine

/-- The rows that are drawn (R173, R176): row `dy` of the sprite is one of them when the sprite has it and, with clipping, it is
not wrapped round from the bottom edge. -/
theorem lt_rowsDrawn_iff (s : State) (y n : Nibble) (r : Fin 32) :
    (r.val + 32 - (s.getV y).toNat % 32) % 32 < rowsDrawn s y n ↔
      (r.val + 32 - (s.getV y).toNat % 32) % 32 < n.toNat ∧ (s.cfg.drawClip = true → (s.getV y).toNat % 32 ≤ r.val) := by
  unfold rowsDrawn
  split
  · rw [forall_prop_of_true ‹_›]
    omega
  · exact (and_iff_left fun clips => absurd clips ‹_›).symm

/-- The sprite of `Canvas.spriteAt` over the bytes that are read is the sprite of the spec's text. -/
theorem State.spriteOn_eq_spriteBit (s : State) (x y n : Nibble) (c : Fin 64) (r : Fin 32) :
    s.spriteOn x y n c r = spriteBit s x y n c.val r.val := by
  have same_dy : (r.val + 64 - (s.getV y).toNat % 32) % 32 = (r.val + 32 - (s.getV y).toNat % 32) % 32 := by omega
  have drawn := lt_rowsDrawn_iff s y n r
  have in_byte (dx : Nat) : 7 - dx < 8 := by omega
  rw [Bool.eq_iff_iff]
  simp only [State.spriteOn, Canvas.spriteAt, Canvas.rowBit, State.spriteBytes, State.length_loadBytes,
    State.getD_loadBytes, spriteBit, State.ea, Nat.add_zero, Bool.and_eq_true, Bool.or_eq_true, Bool.not_eq_true',
    decide_eq_true_eq, in_byte]
  simp only [startRow, startColumn, same_dy]
  by_cases is_drawn : (r.val + 32 - (s.getV y).toNat % 32) % 32 < rowsDrawn s y n
  · rw [if_pos is_drawn]
    obtain ⟨in_sprite, unwrapped⟩ := drawn.mp is_drawn
    cases clip : s.cfg.drawClip with
    | false => simp only [is_drawn, in_sprite, true_or, true_and, and_true]
    | true => simp only [is_drawn, in_sprite, unwrapped clip, Bool.true_eq_false, false_or, true_and, and_true]
  · refine iff_of_false (fun on => is_drawn on.1) ?_
    rintro ⟨unclipped, ⟨-, in_sprite⟩, -⟩
    exact is_drawn (drawn.mpr ⟨in_sprite, fun clip => (unclipped.resolve_left (by simp [clip])).2⟩)

/-- Settles O35: a draw inverts the pixels under the model's sprite, which is the statement's. -/
theorem drawInvertsPixelsUnderSprite : Obligations.DrawInvertsPixelsUnderSprite := by
  intro s x y n noFault
  refine ⟨_, exec_drw_of_noFault noFault, fun c r => ?_, fun k k_ne_vf => s.getV_afterDraw_ne_vf k_ne_vf, fun a => rfl, rfl⟩
  rw [State.pixel_afterDraw, State.spriteOn_eq_spriteBit]

/-- VF after a draw (R175, R176). -/
theorem State.getV_vf_afterDraw (s : State) (x y n : Nibble) :
    (s.afterDraw x y n).getV vf = collisionByte s.cfg.vfReset (s.getV vf) (s.drawSprite x y n).2 :=
  State.getV_setV_same s vf _

/-- Settles O36: the draw collides exactly where some pixel that was on lies under the sprite. -/
theorem drawSetsFlagOnCollision : Obligations.DrawSetsFlagOnCollision := by
  intro s x y n noFault
  refine ⟨_, exec_drw_of_noFault noFault, ?_, fun clear => ?_⟩
  · rintro ⟨c, r, on, under⟩
    rw [← State.spriteOn_eq_spriteBit] at under
    exact State.getV_vf_afterDraw_of_collision on under
  · have noCollision : (s.drawSprite x y n).2 = false := by
      rw [← Bool.not_eq_true, (s.drawSprite_spec x y n).2]
      rintro ⟨c, r, on, under⟩
      rw [State.spriteOn_eq_spriteBit] at under
      exact clear c r ⟨on, under⟩
    rw [State.getV_vf_afterDraw, noCollision]
    rfl

end Sys2Proof.Machine
end
